-- ==== Sys2Proof/Word.lean ====
section
/-! DEFINITION. The byte and the 32-bit word (spec/00_scope.md R9), and the frame in which the host hands a command
to the core (spec/30_encoding.md R70). -/

namespace Sys2Proof

/-- A byte: 8 bits (R9). -/
abbrev Byte := BitVec 8

/-- A word: 32 bits, unsigned (R9). -/
abbrev Word := BitVec 32

/-- A command as the host presents it: the 32-bit command word and the payload bytes, first byte first (R70). The
frame carries whatever payload the transport delivered; whether its length is the declared one is tested when the
frame is decoded (R74). -/
structure Frame where
  /-- the command word `CW` (R71) -/
  cw : Word
  /-- the payload byte sequence (R51) -/
  payload : List Byte
  deriving DecidableEq, Repr

end Sys2Proof
end

