-- ==== Sys2Proof/Config.lean ====
section
/-! DEFINITION. The parameters of the hardware (spec/00_scope.md R8). All are constants of this hardware; the spec
leaves one of them open, `SNAP_BYTE_ORDER`, with the value `little` here (spec/92_eei_decisions.md D4); a model takes it as
an argument (R8), as Machine/Variant.lean does. The spec
leaves no value free: there is no oracle (R17), so this file holds no free value. The structural
sizes (8 words of 32 bits, blocks of 64 bytes, 64 rounds, the value 32 of `MDLEN`) are part of the types or stand as
numerals where the rules have them. -/

namespace Sys2Proof

/-- The two byte orders a snapshot image can have (spec/00_scope.md R8, spec/20_memory.md R54). -/
inductive ByteOrder where
  | little
  | big
  deriving DecidableEq, Repr

namespace Config

/-- `SNAP_BYTE_ORDER`, the order of every 4-byte field of the image: `little` for this hardware (R8, R54). This
is its value; the codec, SNAPSHOT, RESTORE, the commands, the step and the machine take the order as an argument
(Machine/StateCodec.lean, Machine/Variant.lean), as R8 asks of an open parameter. -/
def snapByteOrder : ByteOrder := .little

/-- `IMAGE_BYTES`, the size of a snapshot image (R8). -/
def imageBytes : Nat := 112

/-- `LEGACY_EXTRA`, the one accepted oversize of an image (R8; spec/90_conflicts.md C2). -/
def legacyExtra : Nat := 8

/-- `ABSORB_MAX`, the largest payload of one ABSORB (R8, spec/92_eei_decisions.md D13). -/
def absorbMax : Nat := 2 ^ 24 - 1

/-- `TAG`, the six bytes of "sha256" (R8, spec/30_encoding.md R81). -/
def tag : List Byte := [0x73, 0x68, 0x61, 0x32, 0x35, 0x36]

end Config

end Sys2Proof
end

