-- ==== Sys2Proof/Machine/State.lean ====
section
/-! DEFINITION. The state of the machine: the one Digest Context (spec/10_state.md R20), the moves the host still has to
make, and the responses the core has given; the ways a step can stop; the state after reset. -/

namespace Sys2Proof.Machine

/-- Eight 32-bit words in order: the hash state `H[0..7]` (spec/10_state.md R22), and the 8-word argument and result of
`Compress` (spec/40_compression_core.md R100). -/
structure HashWords where
  h0 : Word
  h1 : Word
  h2 : Word
  h3 : Word
  h4 : Word
  h5 : Word
  h6 : Word
  h7 : Word
  deriving DecidableEq, Repr

/-- The contents of the block buffer: index and byte pairs in canonical form (`Memory.wf`, Machine/Ops.lean). An index
that is not listed holds `Memory.unlisted`. -/
abbrev Memory := List Host.Cell

/-- What a buffer byte holds where nothing is listed: 0x00, the value of every buffer byte after reset and after CREATE
(spec/10_state.md R39). -/
def Memory.unlisted : Byte := 0x00

/-- The Digest Context, in the field order of spec/10_state.md R20. -/
structure Context where
  /-- `H[0..7]`, the running hash value (R22) -/
  h : HashWords
  /-- `LEN_LO`, bits 31:0 of the bit-length counter (R25) -/
  lenLo : Word
  /-- `LEN_HI`, bits 63:32 of the bit-length counter (R25) -/
  lenHi : Word
  /-- `BUF[0..63]`, the block buffer (R32; spec/20_memory.md R50) -/
  buf : Memory
  /-- `NUM`, the count of valid buffer bytes (R27) -/
  num : Word
  /-- `MDLEN`, the digest-length tag (R28) -/
  mdlen : Word
  deriving DecidableEq, Repr

/-- A response: an 8-bit status and a payload (spec/30_encoding.md R79). -/
structure Response where
  /-- `STATUS` -/
  status : Byte
  /-- `RPAYLOAD` (R80) -/
  payload : List Byte
  deriving DecidableEq, Repr

/-- The statuses the core can give (R79). -/
inductive Status where
  | ok
  | unsupportedAlgorithm
  | malformedState
  | illegalCommand
  | contextFault
  deriving DecidableEq, Repr

/-- A move of the host at the command port (spec/00_scope.md R16). The host has no move that presents a frame while
another is being executed (spec/70_reset_and_hazards.md R225; log entry 3). -/
inductive HostMove where
  /-- it presents a frame and takes the response -/
  | frame (f : Frame)
  /-- it asserts reset: between commands (`none`), or while the command of the given frame is in progress (R221) -/
  | reset (inProgress : Option Frame)
  deriving DecidableEq, Repr

/-- The state. Only `ctx` is state the spec gives the hardware (spec/00_scope.md R17); `port` and `responses` are the two
sides of the command port, which the model holds so that a step is a function of one state (log entries 1 and 2). -/
structure State where
  /-- the Digest Context, `ctx` of R13 -/
  ctx : Context
  /-- the host's moves still to come, the next one first -/
  port : List HostMove
  /-- the responses given so far, the first one first; the core never reads them -/
  responses : List Response
  deriving DecidableEq, Repr

/-- Why the machine stops with a fault. The spec's own errors are no faults of this kind: they are responses
(spec/60_exceptions.md R193). -/
inductive Fault where
  /-- An access to `count` buffer bytes from index `index` that is not inside `BUF[0..63]` (spec/00_scope.md R13). Raised
  by `memRead` and `memWrite`. Safe: the spec gives no such access a meaning, and no command can make one, because
  ABSORB, DIGEST and HEXDIGEST test the context first (spec/10_state.md R37). -/
  | bufferRange (index count : Nat)
  deriving DecidableEq, Repr

/-- Why the machine gives an input no meaning. -/
inductive Refusal where
  /-- The instruction has no meaning in the model. No arm of `exec` answers so. Safe. -/
  | notModelled (mnemonic : String)
  /-- The payload does not have the length the command word declares: "such a frame is refused at the boundary, it is
  not a command" (spec/30_encoding.md R74). Raised by `answerUndecoded`. Safe: no meaning is given. -/
  | payloadLength (declared actual : Nat)
  deriving DecidableEq, Repr

/-- `H_INIT[0..7]`, the initial hash words (spec/10_state.md R23). -/
def hInit : HashWords :=
  ⟨0x6a09e667, 0xbb67ae85, 0x3c6ef372, 0xa54ff53a, 0x510e527f, 0x9b05688c, 0x1f83d9ab, 0x5be0cd19⟩

/-- The machine right after reset: every field of the context at the value of spec/10_state.md R39; the command port
idle and no response pending (spec/70_reset_and_hazards.md R221). -/
def State.reset : State where
  ctx :=
    { h := hInit
      lenLo := 0x00000000
      lenHi := 0x00000000
      buf := []
      num := 0x00000000
      mdlen := 0x00000020 }
  port := []
  responses := []

end Sys2Proof.Machine
end

