-- ==== Sys2Proof/Machine/Operands.lean ====
section
/-! DEFINITION. What the commands do with bytes and words before and after the context is touched: byte sequences
(spec/00_scope.md R10), word and byte conversion (R11), shifts and rotations (R12), the digest and hexadecimal forms of a
result (spec/41_context_ops.md R144, R147), and the labeled pair (spec/30_encoding.md R80). -/

namespace Sys2Proof.Machine

/-- The byte at position `i` of a sequence (R10). Every use reads a position inside the sequence: the blocks of
`Compress` have 64 bytes (spec/40_compression_core.md R101) and RESTORE has tested the image length
(spec/42_state_codec.md R167). -/
def byteAt (s : List Byte) (i : Nat) : Byte := s.getD i 0

/-- The `n` bytes of a sequence from position `i`: `s[i..i+n-1]` of R10. -/
def slice (s : List Byte) (i n : Nat) : List Byte := (s.drop i).take n

/-- `zeros(n)` (R10). -/
def zeros (n : Nat) : List Byte := List.replicate n 0x00

/-- `be32`: the bytes of a word, most significant first (R11). -/
def be32 (v : Word) : List Byte :=
  [v.extractLsb' 24 8, v.extractLsb' 16 8, v.extractLsb' 8 8, v.extractLsb' 0 8]

/-- `le32`: the bytes of a word, least significant first (R11). -/
def le32 (v : Word) : List Byte :=
  [v.extractLsb' 0 8, v.extractLsb' 8 8, v.extractLsb' 16 8, v.extractLsb' 24 8]

/-- `be32dec`: the word of four bytes, the first one most significant (R11). -/
def be32dec (b : List Byte) : Word := byteAt b 0 ++ byteAt b 1 ++ byteAt b 2 ++ byteAt b 3

/-- `le32dec`: the word of four bytes, the first one least significant (R11). -/
def le32dec (b : List Byte) : Word := byteAt b 3 ++ byteAt b 2 ++ byteAt b 1 ++ byteAt b 0

/-- `snap32`: the bytes of a word in the byte order of the image (R11). -/
def snap32 : ByteOrder → Word → List Byte
  | .little, v => le32 v
  | .big, v => be32 v

/-- `snap32dec`: the word of four image bytes (R11). -/
def snap32dec : ByteOrder → List Byte → Word
  | .little, b => le32dec b
  | .big, b => be32dec b

/-- `shr(x, n)`: zeros enter at the top (R12). -/
def shr (x : Word) (n : Nat) : Word := x >>> n

/-- `rotr(x, n)`: rotation to the right by `n`, for `0 < n < 32` (R12). -/
def rotr (x : Word) (n : Nat) : Word := shr x n ||| x <<< (32 - n)

/-- The eight words in order. -/
def hashList (h : HashWords) : List Word := [h.h0, h.h1, h.h2, h.h3, h.h4, h.h5, h.h6, h.h7]

/-- The digest form of eight words: each big-endian, `H[0]` first (spec/20_memory.md R53, spec/41_context_ops.md R144). -/
def digestOf (h : HashWords) : List Byte := (hashList h).flatMap be32

/-- `hexchar`: the ASCII code of a lowercase hexadecimal digit (R147). -/
def hexChar (v : BitVec 4) : Byte :=
  if v.toNat ≤ 9 then BitVec.ofNat 8 (0x30 + v.toNat) else BitVec.ofNat 8 (0x61 + v.toNat - 10)

/-- `HexEncode`: two characters for each byte, the high nibble first (R147). -/
def hexEncode (d : List Byte) : List Byte :=
  d.flatMap fun b => [hexChar (b.extractLsb' 4 4), hexChar (b.extractLsb' 0 4)]

/-- The labeled pair as the response payload of SNAPSHOT: the tag length, the tag, the image
(spec/30_encoding.md R80). -/
def labeledPair (tag image : List Byte) : List Byte := BitVec.ofNat 8 tag.length :: (tag ++ image)

end Sys2Proof.Machine
end

