-- ==== Sys2Proof/Machine/Compression.lean ====
section
/-! DEFINITION. The Compression Core: the function `Compress` and its parts (spec/40_compression_core.md). It is no
command; ABSORB, DIGEST and HEXDIGEST call it (R109). -/

namespace Sys2Proof.Machine

/-- The round constants `K[0..31]` (R103). -/
def roundConstantsLow : List Word :=
  [0x428a2f98, 0x71374491, 0xb5c0fbcf, 0xe9b5dba5] ++
  [0x3956c25b, 0x59f111f1, 0x923f82a4, 0xab1c5ed5] ++
  [0xd807aa98, 0x12835b01, 0x243185be, 0x550c7dc3] ++
  [0x72be5d74, 0x80deb1fe, 0x9bdc06a7, 0xc19bf174] ++
  [0xe49b69c1, 0xefbe4786, 0x0fc19dc6, 0x240ca1cc] ++
  [0x2de92c6f, 0x4a7484aa, 0x5cb0a9dc, 0x76f988da] ++
  [0x983e5152, 0xa831c66d, 0xb00327c8, 0xbf597fc7] ++
  [0xc6e00bf3, 0xd5a79147, 0x06ca6351, 0x14292967]

/-- The round constants `K[32..63]` (R103). -/
def roundConstantsHigh : List Word :=
  [0x27b70a85, 0x2e1b2138, 0x4d2c6dfc, 0x53380d13] ++
  [0x650a7354, 0x766a0abb, 0x81c2c92e, 0x92722c85] ++
  [0xa2bfe8a1, 0xa81a664b, 0xc24b8b70, 0xc76c51a3] ++
  [0xd192e819, 0xd6990624, 0xf40e3585, 0x106aa070] ++
  [0x19a4c116, 0x1e376c08, 0x2748774c, 0x34b0bcb5] ++
  [0x391c0cb3, 0x4ed8aa4a, 0x5b9cca4f, 0x682e6ff3] ++
  [0x748f82ee, 0x78a5636f, 0x84c87814, 0x8cc70208] ++
  [0x90befffa, 0xa4506ceb, 0xbef9a3f7, 0xc67178f2]

/-- The 64 round constants `K[0..63]` (R103). -/
def roundConstants : List Word := roundConstantsLow ++ roundConstantsHigh

/-- `Ch` (R105). -/
def ch (x y z : Word) : Word := (x &&& y) ^^^ (~~~x &&& z)

/-- `Maj` (R105). -/
def maj (x y z : Word) : Word := (x &&& y) ^^^ (x &&& z) ^^^ (y &&& z)

/-- `BSIG0` (R105). -/
def bsig0 (x : Word) : Word := rotr x 2 ^^^ rotr x 13 ^^^ rotr x 22

/-- `BSIG1` (R105). -/
def bsig1 (x : Word) : Word := rotr x 6 ^^^ rotr x 11 ^^^ rotr x 25

/-- `SSIG0` (R105). -/
def ssig0 (x : Word) : Word := rotr x 7 ^^^ rotr x 18 ^^^ shr x 3

/-- `SSIG1` (R105). -/
def ssig1 (x : Word) : Word := rotr x 17 ^^^ rotr x 19 ^^^ shr x 10

/-- The first 16 schedule words: the block read as big-endian words (R106). -/
def blockWords (block : List Byte) : List Word :=
  (List.range 16).map fun t => be32dec (slice block (4 * t) 4)

/-- The next schedule word `W[t]` from the words before it, newest first: position `k` holds `W[t-1-k]` (R106). -/
def nextScheduleWord (newestFirst : List Word) : Word :=
  ssig1 (newestFirst.getD 1 0) + newestFirst.getD 6 0 + ssig0 (newestFirst.getD 14 0) + newestFirst.getD 15 0

/-- `n` more schedule words in front of the ones there are, newest first. -/
def extendSchedule : Nat → List Word → List Word
  | 0, newestFirst => newestFirst
  | n + 1, newestFirst => extendSchedule n (nextScheduleWord newestFirst :: newestFirst)

/-- The message schedule `W[0..63]` of a block (R106). -/
def schedule (block : List Byte) : List Word :=
  (extendSchedule 48 (blockWords block).reverse).reverse

/-- The working variables of the rounds (R107). They are scratch and no state of the machine
(spec/10_state.md R34). -/
structure WorkVars where
  a : Word
  b : Word
  c : Word
  d : Word
  e : Word
  f : Word
  g : Word
  h : Word
  deriving DecidableEq, Repr

/-- The working variables before round 0 (R107). -/
def loadVars (s : HashWords) : WorkVars := ⟨s.h0, s.h1, s.h2, s.h3, s.h4, s.h5, s.h6, s.h7⟩

/-- `T1` of a round with the round constant `k` and the schedule word `w` (R107). -/
def temp1 (v : WorkVars) (k w : Word) : Word := v.h + bsig1 v.e + ch v.e v.f v.g + k + w

/-- `T2` of a round (R107). -/
def temp2 (v : WorkVars) : Word := bsig0 v.a + maj v.a v.b v.c

/-- One round (R107): every assignment uses the values the variables hold at the start of the round. -/
def round (v : WorkVars) (k w : Word) : WorkVars :=
  { h := v.g
    g := v.f
    f := v.e
    e := v.d + temp1 v k w
    d := v.c
    c := v.b
    b := v.a
    a := temp1 v k w + temp2 v }

/-- The rounds, one for each pair of round constant and schedule word, in order (R107). -/
def runRounds : WorkVars → List (Word × Word) → WorkVars
  | v, [] => v
  | v, kw :: rest => runRounds (round v kw.1 kw.2) rest

/-- The feed-forward: the working variables are added to the prior state word by word (R108). -/
def feedForward (s : HashWords) (v : WorkVars) : HashWords :=
  ⟨s.h0 + v.a, s.h1 + v.b, s.h2 + v.c, s.h3 + v.d, s.h4 + v.e, s.h5 + v.f, s.h6 + v.g, s.h7 + v.h⟩

/-- `Compress(S, B)`: the next 8-word state of a state and a 64-byte block (R100). -/
def compress (s : HashWords) (block : List Byte) : HashWords :=
  feedForward s (runRounds (loadVars s) (roundConstants.zip (schedule block)))

end Sys2Proof.Machine
end

