-- ==== Sys2Proof/Syntax.lean ====
section
/-! DEFINITION. The six commands, one constructor per row of spec/opcode_table.json, with the operands spec/00_scope.md
R14 gives them. -/

namespace Sys2Proof

/-- A command with its operands. ABSORB carries its input bytes, RESTORE its tag and its image; the other four have no
operand (R14, spec/30_encoding.md R72). The length fields `N`, `TAGLEN` and `BLEN` of the command word are the lengths
of these byte sequences. -/
inductive Instr where
  /-- CREATE (spec/41_context_ops.md R131) -/
  | create
  /-- ABSORB data (R132) -/
  | absorb (data : List Byte)
  /-- DIGEST (R140) -/
  | digest
  /-- HEXDIGEST (R146) -/
  | hexdigest
  /-- SNAPSHOT (spec/42_state_codec.md R161) -/
  | snapshot
  /-- RESTORE tag, image (R165) -/
  | restore (tag image : List Byte)
  deriving DecidableEq, Repr

end Sys2Proof
end

