-- ==== Sys2Proof/WellFormed.lean ====
section
/-! DEFINITION. Which commands can be encoded: the operand lengths fit the fields of the command word
(spec/30_encoding.md R72). "An operand too long for its field is an assembly error" (R82). -/

namespace Sys2Proof

/-- A command whose operand lengths fit `N` (24 bits), `TAGLEN` (8 bits) and `BLEN` (16 bits) (R72, R73). -/
def Instr.wellFormed : Instr → Bool
  | .create => true
  | .absorb data => data.length < 2 ^ 24
  | .digest => true
  | .hexdigest => true
  | .snapshot => true
  | .restore tag image => tag.length < 2 ^ 8 && image.length < 2 ^ 16

end Sys2Proof
end

