-- ==== Sys2Proof/Decode.lean ====
section
/-! DEFINITION. Decoding and encoding of commands (spec/30_encoding.md R71 to R78): the fields of the command word,
the decoder (total, it rejects by name), the encoder, and the decoder's answer for a word of spec/opcode_table.json. -/

namespace Sys2Proof

/-- `OP`, bits 7:0 of the command word (R71). -/
def opField (cw : Word) : BitVec 8 := cw.extractLsb' 0 8

/-- `ARG`, bits 31:8 of the command word (R71); in format A it is `N` (R72). -/
def argField (cw : Word) : BitVec 24 := cw.extractLsb' 8 24

/-- `TAGLEN`, bits 15:8 of a format R command word (R72). -/
def tagLenField (cw : Word) : BitVec 8 := cw.extractLsb' 8 8

/-- `BLEN`, bits 31:16 of a format R command word (R72). -/
def bLenField (cw : Word) : BitVec 16 := cw.extractLsb' 16 16

/-- What a legal command word says by itself: which command it is and how long its operands are (R76, R78). -/
inductive Header where
  | create
  | absorb (n : Nat)
  | digest
  | hexdigest
  | snapshot
  | restore (tagLen bLen : Nat)
  deriving DecidableEq, Repr

/-- Why a frame is no command. -/
inductive DecodeError where
  /-- the command word is none of the six commands (R77) -/
  | illegalCommand (cw : Word)
  /-- the payload does not have the length the command word declares (R74) -/
  | payloadLength (declared actual : Nat)
  deriving DecidableEq, Repr

/-- The decoding of a command word, case by case as R76 gives it; `none` is an illegal word (R77). -/
def decodeWord (cw : Word) : Option Header :=
  if opField cw = 0x02 then some (.absorb (argField cw).toNat)
  else if opField cw = 0x06 then some (.restore (tagLenField cw).toNat (bLenField cw).toNat)
  else if argField cw = 0 then
    if opField cw = 0x01 then some .create
    else if opField cw = 0x03 then some .digest
    else if opField cw = 0x04 then some .hexdigest
    else if opField cw = 0x05 then some .snapshot
    else none
  else none

/-- The payload length a legal command word declares: `0`, `N` or `TAGLEN + BLEN` (R74). -/
def declaredLength : Header → Nat
  | .create => 0
  | .absorb n => n
  | .digest => 0
  | .hexdigest => 0
  | .snapshot => 0
  | .restore tagLen bLen => tagLen + bLen

/-- The command made of a header and its payload: `data`, `tag` and `image` are cut out of the payload as R73 says. -/
def assembleInstr : Header → List Byte → Instr
  | .create, _ => .create
  | .absorb n, payload => .absorb (payload.take n)
  | .digest, _ => .digest
  | .hexdigest, _ => .hexdigest
  | .snapshot, _ => .snapshot
  | .restore tagLen bLen, payload => .restore (payload.take tagLen) ((payload.drop tagLen).take bLen)

/-- The decoding of a frame. The command word is decoded first, and an illegal word ends the decoding whatever stands
in the payload (R76, R130, R196); then the payload must have the declared length (R74). -/
def decode (f : Frame) : Except DecodeError Instr :=
  match decodeWord f.cw with
  | none => .error (.illegalCommand f.cw)
  | some hd =>
    if f.payload.length = declaredLength hd then .ok (assembleInstr hd f.payload)
    else .error (.payloadLength (declaredLength hd) f.payload.length)

/-- The command word with the argument `arg` in bits 31:8 and the opcode `op` in bits 7:0 (R71). -/
def packWord (arg : BitVec 24) (op : BitVec 8) : Word := arg ++ op

/-- The frame of a command, from the formats of R72 and the opcodes of R75. -/
def encode : Instr → Frame
  | .create => ⟨packWord 0 0x01, []⟩
  | .absorb data => ⟨packWord (BitVec.ofNat 24 data.length) 0x02, data⟩
  | .digest => ⟨packWord 0 0x03, []⟩
  | .hexdigest => ⟨packWord 0 0x04, []⟩
  | .snapshot => ⟨packWord 0 0x05, []⟩
  | .restore tag image =>
    ⟨packWord (BitVec.ofNat 16 image.length ++ BitVec.ofNat 8 tag.length) 0x06, tag ++ image⟩

/-- The `match` column of the opcode map for the row of a command (R75). -/
def rowMatch : Instr → Word
  | .create => 0x00000001
  | .absorb _ => 0x00000002
  | .digest => 0x00000003
  | .hexdigest => 0x00000004
  | .snapshot => 0x00000005
  | .restore _ _ => 0x00000006

/-- The `mask` column of the opcode map for the row of a command (R75). -/
def rowMask : Instr → Word
  | .create => 0xFFFFFFFF
  | .absorb _ => 0x000000FF
  | .digest => 0xFFFFFFFF
  | .hexdigest => 0xFFFFFFFF
  | .snapshot => 0xFFFFFFFF
  | .restore _ _ => 0x000000FF

/-- The first `n` bytes of a number written with its least significant byte first. -/
def bytesOfNat : Nat → Nat → List Byte
  | 0, _ => []
  | n + 1, v => BitVec.ofNat 8 v :: bytesOfNat n (v / 256)

/-- The frame of a command numbered as spec/opcode_table.json numbers its bits: the command word is bits 31:0 and
payload byte `k` is bits `39+8k : 32+8k`; the payload has the length the command word declares, so the bits above
the given ones are payload bytes of zero (log entry 5). -/
def frameOfTableWord (nbits w : Nat) : Frame :=
  let cw := BitVec.ofNat 32 (w % 2 ^ nbits)
  match decodeWord cw with
  | none => ⟨cw, []⟩
  | some hd => ⟨cw, bytesOfNat (declaredLength hd) (w % 2 ^ nbits / 2 ^ 32)⟩

/-- What the decoder reads from a word of the opcode table: `none` where it refuses. -/
def decodeTableWord (nbits w : Nat) : Option Instr :=
  match decode (frameOfTableWord nbits w) with
  | .ok i => some i
  | .error _ => none

end Sys2Proof
end

