-- ==== Sys2Proof/Machine/Flags.lean ====
section
/-! DEFINITION. The hardware has no flags and no condition codes (spec/10_state.md R31). This file holds the conditions
the commands decide on, which are all the data-dependent choices there are (spec/41_context_ops.md R138), and the number
of each status (spec/30_encoding.md R79). -/

namespace Sys2Proof.Machine

/-- `WF(ctx)`: the context is well-formed (spec/10_state.md R37). It puts no condition on `H`, `LEN` or the buffer. -/
def wellFormedCtx (c : Context) : Bool := c.num.toNat < 64 && c.mdlen == 32

/-- The buffer is full: `NUM` has reached 64 (spec/41_context_ops.md R135). -/
def bufferFull (num : Word) : Bool := num == 64

/-- With `n` buffered bytes the 0x80 byte and the length field fit one block (R142). -/
def padsInOneBlock (n : Nat) : Bool := n ≤ 55

/-- The tag is "sha256": the same length and the same bytes, nothing trimmed or folded (spec/30_encoding.md R81,
spec/42_state_codec.md R166). -/
def tagMatches (tag : List Byte) : Bool := tag == Config.tag

/-- The image length is exactly 112 or exactly 120 (spec/42_state_codec.md R167). -/
def imageLengthAccepted (n : Nat) : Bool :=
  n == Config.imageBytes || n == Config.imageBytes + Config.legacyExtra

/-- The number of a status (spec/30_encoding.md R79). -/
def statusCode : Status → Byte
  | .ok => 0x00
  | .unsupportedAlgorithm => 0x01
  | .malformedState => 0x02
  | .illegalCommand => 0x03
  | .contextFault => 0x04

end Sys2Proof.Machine
end

