-- ==== Sys2Proof/Machine/Ops.lean ====
section
/-! DEFINITION. The named operations over the block buffer, the length counter, the whole context and the command port:
buffer reads and writes (spec/00_scope.md R13), the counter step (spec/41_context_ops.md R134), giving a response
(R13 `respond`), ending a command in an error (R13 `raise`, spec/60_exceptions.md R193), and reset. -/

namespace Sys2Proof.Machine

/-! ### The block buffer -/

/-- The canonical form of a buffer: indexes strictly rising and below 64, and no entry equal to what an unlisted index
holds, so that equal contents are equal data. -/
def Memory.wf (m : Memory) : Bool :=
  decide (m.Pairwise fun x y => x.1 < y.1) && m.all fun x => x.1 < 64 && x.2 != Memory.unlisted

/-- The byte at an index. -/
def Memory.read : Memory → Nat → Byte
  | [], _ => Memory.unlisted
  | x :: m, a => if x.1 = a then x.2 else Memory.read m a

/-- Writing one byte at an index; writing what an unlisted index holds takes the entry away. -/
def Memory.write : Memory → Nat → Byte → Memory
  | [], a, v => if v = Memory.unlisted then [] else [(a, v)]
  | x :: m, a, v =>
    if a < x.1 then (if v = Memory.unlisted then x :: m else (a, v) :: x :: m)
    else if a = x.1 then (if v = Memory.unlisted then m else (a, v) :: m)
    else x :: Memory.write m a v

/-- Writing a sequence of bytes at consecutive indexes, the first at `a`. -/
def Memory.writeBytes : Memory → Nat → List Byte → Memory
  | m, _, [] => m
  | m, a, v :: vs => Memory.writeBytes (m.write a v) (a + 1) vs

/-- The buffer whose bytes from index `a` on are the given ones and which holds nothing else. -/
def Memory.ofBytesFrom : Nat → List Byte → Memory
  | _, [] => []
  | a, v :: vs =>
    if v = Memory.unlisted then Memory.ofBytesFrom (a + 1) vs else (a, v) :: Memory.ofBytesFrom (a + 1) vs

/-- `n` consecutive bytes from index `a`. -/
def Memory.bytes (m : Memory) (a n : Nat) : List Byte := (List.range n).map fun i => m.read (a + i)

/-- `MemRead(a, n)`: `BUF[a..a+n-1]`; there is no other index to read (R13). -/
def memRead (m : Memory) (a n : Nat) : Except Fault (List Byte) :=
  if a + n ≤ 64 then .ok (m.bytes a n) else .error (.bufferRange a n)

/-- `MemWrite(a, n, v)` with `n` the length of `v` (R13). -/
def memWrite (m : Memory) (a : Nat) (v : List Byte) : Except Fault Memory :=
  if a + v.length ≤ 64 then .ok (m.writeBytes a v) else .error (.bufferRange a v.length)

/-- `MemWrite(0, 64, v)`, the write of the whole buffer by CREATE and RESTORE (spec/20_memory.md R59): the new contents
are the 64 bytes alone. -/
def memFill (v : List Byte) : Memory := Memory.ofBytesFrom 0 (v.take 64)

/-! ### The bit-length counter -/

/-- `LEN = LEN_HI · 2^32 + LEN_LO` (spec/10_state.md R25). -/
def lenValue (c : Context) : Nat := c.lenHi.toNat * 2 ^ 32 + c.lenLo.toNat

/-- `LEN'`, the counter after ABSORB of `n` bytes: `LEN + 8·n` modulo 2^64 (R26, spec/41_context_ops.md R134). -/
def lenAfter (c : Context) (n : Nat) : Nat := (lenValue c + 8 * n) % 2 ^ 64

/-- `LEN'[31:0]` of a counter value (R26). -/
def lenLoOf (len : Nat) : Word := BitVec.ofNat 32 len

/-- `LEN'[63:32]` of a counter value (R26). -/
def lenHiOf (len : Nat) : Word := BitVec.ofNat 32 (len / 2 ^ 32)

/-! ### The context -/

/-- The context CREATE makes, field by field (spec/41_context_ops.md R131). -/
def createdCtx : Context where
  h := hInit
  lenLo := 0
  lenHi := 0
  buf := memFill (zeros 64)
  num := 0
  mdlen := 32

/-! ### The command port -/

/-- The state with another context. -/
def setCtx (s : State) (c : Context) : State := { s with ctx := c }

/-- The state in which one more response has been given. -/
def pushResponse (s : State) (r : Response) : State := { s with responses := s.responses ++ [r] }

/-- The state in which the host's next move has been taken from the port. -/
def setPort (s : State) (rest : List HostMove) : State := { s with port := rest }

/-- `respond(OK, payload)`: the command ends and its response is given (R13, spec/30_encoding.md R79). -/
def respondOk (payload : List Byte) (s : State) : Host.Outcome State Fault Refusal :=
  .next (pushResponse s ⟨statusCode .ok, payload⟩)

/-- `raise status`: the command ends with an error. The response is the status number with an empty payload, and nothing
else changes: no register is saved, no mode changes, control goes nowhere, and nothing sticks (R13,
spec/60_exceptions.md R193, R194). There is no return from an error, because there is no handler (R195). This is the
one place where an error is taken. -/
def raise (st : Status) (s : State) : Host.Outcome State Fault Refusal :=
  .next (pushResponse s ⟨statusCode st, []⟩)

/-- The end of a command that has computed a new context, or has made a buffer access that does not exist. -/
def finishWith (r : Except Fault Context) (s : State) : Host.Outcome State Fault Refusal :=
  match r with
  | .ok c => respondOk [] (setCtx s c)
  | .error f => .fault f

/-- The end of a command that only reads the context and has computed a response payload. -/
def answerWith (r : Except Fault (List Byte)) (s : State) : Host.Outcome State Fault Refusal :=
  match r with
  | .ok p => respondOk p s
  | .error f => .fault f

/-- The test ABSORB, DIGEST and HEXDIGEST make before anything else: an ill-formed context ends the command with
`ContextFault` (spec/41_context_ops.md R130). -/
def guardWellFormed (s : State) (run : Host.Outcome State Fault Refusal) : Host.Outcome State Fault Refusal :=
  if wellFormedCtx s.ctx then run else raise .contextFault s

/-- What the core does with a frame that decodes to no command: an illegal word is answered `IllegalCommand`
(spec/60_exceptions.md R196); a payload of another length than the declared one is refused at the boundary
(spec/30_encoding.md R74). -/
def answerUndecoded (e : DecodeError) (s : State) : Host.Outcome State Fault Refusal :=
  match e with
  | .illegalCommand _ => raise .illegalCommand s
  | .payloadLength declared actual => .refused (.payloadLength declared actual)

/-- Reset: every field of the context takes its reset value, and no response is given, neither for the reset nor for a
command in progress, of which no effect survives (spec/70_reset_and_hazards.md R220, R221). The host's later moves and
the responses already given are the host's and stay. -/
def assertReset (s : State) : State := setCtx s State.reset.ctx

/-- An idle port: the core starts nothing of its own accord and the context holds its value (spec/00_scope.md R19). -/
def idle (s : State) : State := s

end Sys2Proof.Machine
end

