-- ==== Sys2Proof/Machine/ContextOps.lean ====
section
/-! DEFINITION. The meanings of the Digest Context commands CREATE, ABSORB, DIGEST and HEXDIGEST
(spec/41_context_ops.md). -/

namespace Sys2Proof.Machine

/-- CREATE: the context is overwritten with the fresh one, whatever it was (R131). -/
def execCreate (s : State) : Host.Outcome State Fault Refusal := respondOk [] (setCtx s createdCtx)

/-- The compression step of ABSORB: when the buffer is full it is compressed into `H` and `NUM` goes back to 0; the buffer
bytes stay (R135). -/
def compressIfFull (c : Context) : Except Fault Context :=
  if bufferFull c.num then
    match memRead c.buf 0 64 with
    | .ok block => .ok { c with h := compress c.h block, num := 0 }
    | .error f => .error f
  else .ok c

/-- The byte step of ABSORB: the byte goes to `BUF[NUM]` and `NUM` grows by 1 (R133), then the compression step. -/
def absorbByte (c : Context) (b : Byte) : Except Fault Context :=
  match memWrite c.buf c.num.toNat [b] with
  | .ok buf => compressIfFull { c with buf := buf, num := c.num + 1 }
  | .error f => .error f

/-- The byte steps of ABSORB, in order (R132). -/
def absorbBytes : Context → List Byte → Except Fault Context
  | c, [] => .ok c
  | c, b :: bs =>
    match absorbByte c b with
    | .ok c' => absorbBytes c' bs
    | .error f => .error f

/-- ABSORB: the well-formedness test, the counter step for all the bytes together, the byte steps (R132, R134). -/
def execAbsorb (data : List Byte) (s : State) : Host.Outcome State Fault Refusal :=
  guardWellFormed s (finishWith (absorbBytes { s.ctx with
    lenLo := lenLoOf (lenAfter s.ctx data.length)
    lenHi := lenHiOf (lenAfter s.ctx data.length) } data) s)

/-- The length field of the padding: the counter as a 64-bit big-endian number, as it stands (R143). -/
def lengthField (c : Context) : List Byte := be32 c.lenHi ++ be32 c.lenLo

/-- The one or two padding blocks for the `n` buffered bytes `m` and the length field `l8` (R142). -/
def paddingBlocks (n : Nat) (m l8 : List Byte) : List (List Byte) :=
  if padsInOneBlock n then [m ++ [0x80] ++ zeros (55 - n) ++ l8]
  else [m ++ [0x80] ++ zeros (63 - n), zeros 56 ++ l8]

/-- Finalization: it works on a private copy of `H` and writes nothing of the context (R141, R144). -/
def finalize (c : Context) : Except Fault (List Byte) :=
  match memRead c.buf 0 c.num.toNat with
  | .ok m => .ok (digestOf ((paddingBlocks c.num.toNat m (lengthField c)).foldl compress c.h))
  | .error f => .error f

/-- DIGEST: the well-formedness test, then the 32 digest bytes (R140). -/
def execDigest (s : State) : Host.Outcome State Fault Refusal :=
  guardWellFormed s (answerWith (finalize s.ctx) s)

/-- HEXDIGEST: the well-formedness test, then the digest as 64 lowercase hexadecimal characters (R146). -/
def execHexdigest (s : State) : Host.Outcome State Fault Refusal :=
  guardWellFormed s (answerWith ((finalize s.ctx).map hexEncode) s)

end Sys2Proof.Machine
end

