-- ==== Sys2Proof/Machine/StateCodec.lean ====
section
/-! DEFINITION. The meanings of the State Codec commands SNAPSHOT and RESTORE (spec/42_state_codec.md), over the image
layout of spec/20_memory.md R55. Each takes the open parameter `SNAP_BYTE_ORDER` as an argument (spec/00_scope.md R8); the two
meanings of this hardware are those at its value. -/

namespace Sys2Proof.Machine

/-- The byte order SNAPSHOT and RESTORE use: `SNAP_BYTE_ORDER` of this hardware (spec/20_memory.md R54). -/
def imageOrder : ByteOrder := Config.snapByteOrder

/-- The image of a context: every field as it stands, valid or not, and all 64 buffer bytes (R160, R161; the layout is
R55). -/
def serialize (o : ByteOrder) (c : Context) : List Byte :=
  (hashList c.h).flatMap (snap32 o) ++ snap32 o c.lenLo ++ snap32 o c.lenHi ++ c.buf.bytes 0 64 ++
    snap32 o c.num ++ snap32 o c.mdlen

/-- The word of the image at an offset (R55). -/
def imageWord (o : ByteOrder) (image : List Byte) (offset : Nat) : Word := snap32dec o (slice image offset 4)

/-- The context of an image: every field as it stands in bytes 0 to 111, nothing checked or mended; bytes from 112 on are
dropped (R165, R168, R169). -/
def deserialize (o : ByteOrder) (image : List Byte) : Context where
  h :=
    ⟨imageWord o image 0, imageWord o image 4, imageWord o image 8, imageWord o image 12, imageWord o image 16,
      imageWord o image 20, imageWord o image 24, imageWord o image 28⟩
  lenLo := imageWord o image 32
  lenHi := imageWord o image 36
  buf := memFill (slice image 40 64)
  num := imageWord o image 104
  mdlen := imageWord o image 108

/-- SNAPSHOT of the hardware whose image fields have the given byte order: the tag "sha256" and the image of the context,
on any context; nothing is written (R161, R162). -/
def execSnapshotIn (o : ByteOrder) (s : State) : Host.Outcome State Fault Refusal :=
  respondOk (labeledPair Config.tag (serialize o s.ctx)) s

/-- RESTORE of the hardware whose image fields have the given byte order: the tag is tested first, then the image length,
and a pair that passes overwrites the whole context (R165). -/
def execRestoreIn (o : ByteOrder) (tag image : List Byte) (s : State) : Host.Outcome State Fault Refusal :=
  if tagMatches tag then
    if imageLengthAccepted image.length then respondOk [] (setCtx s (deserialize o image))
    else raise .malformedState s
  else raise .unsupportedAlgorithm s

/-- SNAPSHOT of this hardware (R161). -/
def execSnapshot (s : State) : Host.Outcome State Fault Refusal := execSnapshotIn imageOrder s

/-- RESTORE of this hardware (R165). -/
def execRestore (tag image : List Byte) (s : State) : Host.Outcome State Fault Refusal :=
  execRestoreIn imageOrder tag image s

end Sys2Proof.Machine
end

