-- ==== Sys2Proof/Machine/Dispatch.lean ====
section
/-! DEFINITION. The dispatch of a command to its meaning, one arm per constructor of `Instr`. -/

namespace Sys2Proof.Machine

def exec (i : Instr) (s : State) : Host.Outcome State Fault Refusal :=
  match i with
  | .create => Sys2Proof.Machine.execCreate s
  | .absorb data => Sys2Proof.Machine.execAbsorb data s
  | .digest => Sys2Proof.Machine.execDigest s
  | .hexdigest => Sys2Proof.Machine.execHexdigest s
  | .snapshot => Sys2Proof.Machine.execSnapshot s
  | .restore tag image => Sys2Proof.Machine.execRestore tag image s

end Sys2Proof.Machine
end

