-- ==== Sys2Proof/Machine/Step.lean ====
section
/-! DEFINITION. One step of the machine: one move of the host at the command port (spec/00_scope.md R16). A frame is
decoded and executed to completion, and its response given, in this one step (spec/20_memory.md R62). -/

namespace Sys2Proof.Machine

/-- The execution of one frame by a machine whose commands have the given meanings: decode first, then the command
(spec/41_context_ops.md R130). -/
def runFrameWith (run : Instr → State → Host.Outcome State Fault Refusal) (f : Frame) (s : State) :
    Host.Outcome State Fault Refusal :=
  match decode f with
  | .ok i => run i s
  | .error e => answerUndecoded e s

/-- One step of a machine whose commands have the given meanings: the host's next move is taken from the port and carried
out; with no move to come the core is idle. -/
def stepWith (run : Instr → State → Host.Outcome State Fault Refusal) (s : State) : Host.Outcome State Fault Refusal :=
  match s.port with
  | [] => .next (idle s)
  | .frame f :: rest => runFrameWith run f (setPort s rest)
  | .reset _ :: rest => .next (assertReset (setPort s rest))

/-- One step of this hardware. -/
def step (s : State) : Host.Outcome State Fault Refusal := stepWith exec s

/-- The state in which the command of a word of spec/opcode_table.json is the next frame the host presents
(log entry 4). -/
def State.withFetchWord (s : State) (nbits w : Nat) : State :=
  setPort s (.frame (frameOfTableWord nbits w) :: s.port)

end Sys2Proof.Machine
end

