-- ==== Sys2Proof/Machine/Variant.lean ====
section
/-! DEFINITION. The machine as a function of the open parameter `SNAP_BYTE_ORDER`, which a model takes as an argument
(spec/00_scope.md R8): its commands, its step, and the machine itself. Nothing but SNAPSHOT and RESTORE changes with the
parameter (spec/20_memory.md R54). The hardware of the spec is the one at `little`, whose commands and step are `exec` and
`step`. -/

namespace Sys2Proof.Machine

/-- What a command does on the hardware whose image fields have the byte order `o` (R8, R54). -/
def execIn (o : ByteOrder) (i : Instr) (s : State) : Host.Outcome State Fault Refusal :=
  match i with
  | .create => execCreate s
  | .absorb data => execAbsorb data s
  | .digest => execDigest s
  | .hexdigest => execHexdigest s
  | .snapshot => execSnapshotIn o s
  | .restore tag image => execRestoreIn o tag image s

/-- One step of the hardware whose image fields have the byte order `o`. -/
def stepIn (o : ByteOrder) (s : State) : Host.Outcome State Fault Refusal := stepWith (execIn o) s

/-- The hardware whose image fields have the byte order `o`, as a machine: its states and the state after reset are the same
for both values (spec/00_scope.md R17: a parameter is not state). -/
def coreIn (o : ByteOrder) : Host.Core where
  State := State
  Fault := Fault
  Refusal := Refusal
  step := stepIn o
  reset := State.reset

end Sys2Proof.Machine
end

