-- ==== Sys2Proof/Machine/Facade.lean ====
section
/-! DEFINITION. The host's side of the commands: the facade's names (spec/41_context_ops.md R148), the pseudo-instructions
with their expansions (spec/30_encoding.md R83), a sequence of commands run one after the other, and the assembler without
its text syntax (R82; log entry 14). -/

namespace Sys2Proof.Machine

/-- Consecutive pieces of a byte sequence, each of at most `k` bytes; the first argument bounds their number. DESIGN CHOICE
(log entry 14): R83 asks only for pieces of at most `ABSORB_MAX` bytes; the model takes full pieces of `k` bytes first and
what is left over last (at least one byte, but for the empty sequence, which is one empty piece), which fixes the number of
pieces. -/
def piecesOf : Nat → Nat → List Byte → List (List Byte)
  | 0, _, bytes => [bytes]
  | fuel + 1, k, bytes => if bytes.length ≤ k then [bytes] else bytes.take k :: piecesOf fuel k (bytes.drop k)

/-- `UPDATE bytes`: one ABSORB, or consecutive ABSORBs over pieces of at most `ABSORB_MAX` bytes (R83), cut as `piecesOf`
cuts them (DESIGN CHOICE, log entry 14). -/
def expandUpdate (bytes : List Byte) : List Instr :=
  (piecesOf bytes.length Config.absorbMax bytes).map Instr.absorb

/-- `RESET_CTX`: CREATE under another name (R83). -/
def expandResetCtx : List Instr := [.create]

/-- `HASH bytes`: CREATE, UPDATE, DIGEST (R83). -/
def expandHash (bytes : List Byte) : List Instr := .create :: (expandUpdate bytes ++ [.digest])

/-- `RESTORE name` where `name = SNAPSHOT`, for the response payload bound to the name: the tag and the image are cut out
of the labeled pair by the tag length it begins with (R80, R83). -/
def expandRestore (payload : List Byte) : List Instr :=
  let tagLen := (byteAt payload 0).toNat
  [.restore (slice payload 1 tagLen) (payload.drop (1 + tagLen))]

/-- A sequence of commands with the given meanings, each run to completion before the next (spec/20_memory.md R61), up to
the first that does not answer a next state. -/
def runCommandsWith (run : Instr → State → Host.Outcome State Fault Refusal) :
    List Instr → State → Host.Outcome State Fault Refusal
  | [], s => .next s
  | i :: is, s =>
    match run i s with
    | .next t => runCommandsWith run is t
    | .fault f => .fault f
    | .refused r => .refused r

/-- A sequence of commands on this hardware. -/
def runCommands (is : List Instr) (s : State) : Host.Outcome State Fault Refusal := runCommandsWith exec is s

/-- A sequence of commands on the hardware whose image fields have the byte order `o` (spec/00_scope.md R8). -/
def runCommandsIn (o : ByteOrder) (is : List Instr) (s : State) : Host.Outcome State Fault Refusal :=
  runCommandsWith (execIn o) is s

/-! ### The assembler -/

/-- A `<bytes>` operand of the assembler (R82), the text read: a quoted string or `hex:` digits as the bytes they stand
for, `zeros(<n>)`, `pattern(<n>)`, or a name bound earlier. -/
inductive BytesOperand where
  | literal (bytes : List Byte)
  | zeros (n : Nat)
  | pattern (n : Nat)
  | name (n : String)
  deriving DecidableEq, Repr

/-- The bytes of an operand, with the images the names are bound to; a name that is not bound has no bytes (R82). -/
def operandBytes (bound : List (String × List Byte)) : BytesOperand → Option (List Byte)
  | .literal bytes => some bytes
  | .zeros n => some (Sys2Proof.Machine.zeros n)
  | .pattern n => some ((List.range n).map fun i => BitVec.ofNat 8 (i % 256))
  | .name n => bound.lookup n

/-- Assembling one command: `N`, `TAGLEN` and `BLEN` come from the operand lengths, and an operand too long for its field
is an assembly error (R82). -/
def assemble (i : Instr) : Option Frame := if i.wellFormed then some (encode i) else none

end Sys2Proof.Machine
end

