-- ==== Sys2Proof/Safety.lean ====
section
/-! DEFINITION. The terms claims about the machine use: a command answered, the invariant every step keeps, reachable
contexts (spec/10_state.md R38), and SHA-256 of a whole message, against which the incremental commands are held. -/

namespace Sys2Proof.Machine

/-- The state after a command on `s` that leaves the context `c` and gives the response `(status, payload)`. The port is
the one the command found. -/
def answered (s : State) (c : Context) (status : Byte) (payload : List Byte) : State where
  ctx := c
  port := s.port
  responses := s.responses ++ [⟨status, payload⟩]

/-- `WF(ctx)` as a proposition (spec/10_state.md R37). -/
abbrev Context.WellFormed (c : Context) : Prop := c.num.toNat < 64 ∧ c.mdlen = 32

/-- A response the spec allows: one of the five statuses, and no payload with an error (spec/30_encoding.md R79, R80). -/
abbrev Response.Legal (r : Response) : Prop := r.status.toNat ≤ 4 ∧ (r.status ≠ 0x00 → r.payload = [])

/-- The invariant of the machine: the buffer is in canonical form (so no byte lies outside `BUF[0..63]`), and every
response given so far is one the spec allows. -/
abbrev State.Inv (s : State) : Prop := s.ctx.buf.wf = true ∧ ∀ r ∈ s.responses, r.Legal

/-- The 64-byte blocks of a byte sequence, from the first on, each compressed into the state; bytes after the last whole
block are left out. -/
def hashBlocks (h : HashWords) (m : List Byte) : HashWords :=
  (List.range (m.length / 64)).foldl (fun acc k => compress acc (slice m (64 * k) 64)) h

/-- A number as 8 bytes, most significant first, modulo 2^64. -/
def be64 (v : Nat) : List Byte := be32 (BitVec.ofNat 32 (v / 2 ^ 32)) ++ be32 (BitVec.ofNat 32 v)

/-- A message padded to whole blocks: the 0x80 byte, zeros, and the bit length (spec/41_context_ops.md R142, read over
the whole message). -/
def padMessage (m : List Byte) : List Byte :=
  m ++ [0x80] ++ zeros ((119 - m.length % 64) % 64) ++ be64 (8 * m.length)

/-- SHA-256 of a message in one piece: the reference the incremental commands are compared with. -/
def sha256 (m : List Byte) : List Byte := digestOf (hashBlocks hInit (padMessage m))

/-- A word with its four bytes in the opposite order. -/
def swapWord (v : Word) : Word := le32dec (be32 v)

/-- `Reachable m c`: the context `c` is reachable, with `m` the bytes absorbed since its CREATE or reset
(spec/10_state.md R38). -/
inductive Reachable : List Byte → Context → Prop where
  | reset : Reachable [] State.reset.ctx
  | create (s t : State) : exec .create s = .next t → Reachable [] t.ctx
  | absorb (m data : List Byte) (s t : State) :
      Reachable m s.ctx → exec (.absorb data) s = .next t → Reachable (m ++ data) t.ctx

end Sys2Proof.Machine
end

