-- ==== Sys2Proof/Certificates/Slice0/Obligations.lean ====
section
/-! DEFINITION. The statements for the provers, each from the numbered rules of spec/ its docstring names. Kind, tier and
citations stand in OBLIGATIONS.json. -/

open Sys2Proof Sys2Proof.Machine

/-! ### Encoding -/

/-- Decoding an encoded well-formed command gives it back: no operand byte and no bit of a length field is lost
(spec/30_encoding.md R72, R73, R76). -/
def Obligations.DecodeOfEncode : Prop :=
  ∀ i : Instr, i.wellFormed = true → decode (encode i) = .ok i

/-- Every frame that decodes is the encoding of the command it decodes to, and that command is well-formed: no two frames
are one command (spec/30_encoding.md R72, R73, R74). -/
def Obligations.EncodeOfDecode : Prop :=
  ∀ (f : Frame) (i : Instr), decode f = .ok i → i.wellFormed = true ∧ encode i = f

/-- The opcode map of R75: the command of a word is the command of the row whose mask and match select the word, with the
fields of R72 as its operand lengths; the all-zero word is no command. -/
def Obligations.OpcodeRowsSelectCommands : Prop :=
  ∀ cw : Word,
    (cw &&& 0xFFFFFFFF = 0x00000001 ↔ decodeWord cw = some .create) ∧
    (cw &&& 0x000000FF = 0x00000002 ↔ decodeWord cw = some (.absorb (cw.toNat / 2 ^ 8))) ∧
    (cw &&& 0xFFFFFFFF = 0x00000003 ↔ decodeWord cw = some .digest) ∧
    (cw &&& 0xFFFFFFFF = 0x00000004 ↔ decodeWord cw = some .hexdigest) ∧
    (cw &&& 0xFFFFFFFF = 0x00000005 ↔ decodeWord cw = some .snapshot) ∧
    (cw &&& 0x000000FF = 0x00000006 ↔
      decodeWord cw = some (.restore (cw.toNat / 2 ^ 8 % 2 ^ 8) (cw.toNat / 2 ^ 16))) ∧
    (cw = 0x00000000 → decodeWord cw = none)

/-- The illegal words are those R77 lists, and a frame with one is answered `IllegalCommand` with an empty payload whatever
the context is and whatever stands in the frame's payload; the context is not changed (R196). -/
def Obligations.IllegalWordIsAnswered : Prop :=
  ∀ (s : State) (f : Frame) (rest : List HostMove), s.port = .frame f :: rest →
    (f.cw.toNat % 2 ^ 8 = 0 ∨ 7 ≤ f.cw.toNat % 2 ^ 8 ∨
      ((f.cw.toNat % 2 ^ 8 = 1 ∨ f.cw.toNat % 2 ^ 8 = 3 ∨ f.cw.toNat % 2 ^ 8 = 4 ∨ f.cw.toNat % 2 ^ 8 = 5) ∧
        f.cw.toNat / 2 ^ 8 ≠ 0)) →
    step s = .next (answered { s with port := rest } s.ctx 0x03 [])

/-- A frame of a legal word whose payload does not have the declared length (`N`, `TAGLEN + BLEN`, or 0) is refused at the
boundary (spec/30_encoding.md R74). -/
def Obligations.WrongPayloadLengthIsRefused : Prop :=
  ∀ (s : State) (f : Frame) (rest : List HostMove) (declared : Nat), s.port = .frame f :: rest →
    ((f.cw.toNat % 2 ^ 8 = 2 ∧ declared = f.cw.toNat / 2 ^ 8) ∨
      (f.cw.toNat % 2 ^ 8 = 6 ∧ declared = f.cw.toNat / 2 ^ 8 % 2 ^ 8 + f.cw.toNat / 2 ^ 16) ∨
      ((f.cw.toNat = 1 ∨ f.cw.toNat = 3 ∨ f.cw.toNat = 4 ∨ f.cw.toNat = 5) ∧ declared = 0)) →
    f.payload.length ≠ declared →
    step s = .refused (.payloadLength declared f.payload.length)

/-- Encodings decode as the spec says: words of R84 and of the table T-E1, three illegal words of that table among them;
and one word that no table of the spec prints, 0x00020306, put together from format R of R72 with a short tag and a short
image, whose operands R73 gives. -/
def Obligations.WorkedEncodingsDecode : Prop :=
  decode ⟨0x00000001, []⟩ = .ok .create ∧
  decode ⟨0x00000502, [0x68, 0x65, 0x6c, 0x6c, 0x6f]⟩ = .ok (.absorb [0x68, 0x65, 0x6c, 0x6c, 0x6f]) ∧
  decode ⟨0x00000004, []⟩ = .ok .hexdigest ∧
  decode ⟨0x00000006, []⟩ = .ok (.restore [] []) ∧
  decode ⟨0x00020306, [0x61, 0x62, 0x63, 0x01, 0x02]⟩ = .ok (.restore [0x61, 0x62, 0x63] [0x01, 0x02]) ∧
  decodeWord 0xFFFFFF02 = some (.absorb 16777215) ∧ decodeWord 0xFFFFFF06 = some (.restore 255 65535) ∧
  decodeWord 0x00700606 = some (.restore 6 112) ∧
  decodeWord 0x00000101 = none ∧ decodeWord 0x80000005 = none ∧ decodeWord 0x00000000 = none

/-! ### The step -/

/-- A step runs the decoded command: when the next frame decodes to a well-formed command, the step is `exec` of it on the
state whose port no longer holds the frame; nothing else is added around `exec`. -/
def Obligations.StepRunsDecodedCommand : Prop :=
  ∀ (s : State) (f : Frame) (rest : List HostMove) (i : Instr),
    s.port = .frame f :: rest → decode f = .ok i → i.wellFormed = true →
    step s = exec i { s with port := rest }

/-- With no move of the host to come a step answers the same state. That the machine steps on so, where the spec says the
run is over, is the model's reading of R19 and R205, DEDUCED (log entry 11); what those rules say themselves is that between
commands the context holds its value and the core starts nothing. After reset the port is idle and nothing has been answered
(R221, in the model's own two fields, log entries 1 and 2). -/
def Obligations.IdlePortHoldsState : Prop :=
  (∀ s : State, s.port = [] → step s = .next s) ∧ State.reset.port = [] ∧ State.reset.responses = []

/-- A reset, also one asserted while a command is in progress, puts the context in the reset state; a command in progress
gets no response and none of its effects survive (R221). -/
def Obligations.ResetAbandonsCommand : Prop :=
  ∀ (s : State) (inProgress : Option Frame) (rest : List HostMove), s.port = .reset inProgress :: rest →
    step s = .next { ctx := State.reset.ctx, port := rest, responses := s.responses }

/-- The values after reset, every field of the context (R39, R220). -/
def Obligations.ResetValues : Prop :=
  State.reset.ctx.h = ⟨0x6a09e667, 0xbb67ae85, 0x3c6ef372, 0xa54ff53a, 0x510e527f, 0x9b05688c, 0x1f83d9ab, 0x5be0cd19⟩ ∧
  State.reset.ctx.lenLo = 0x00000000 ∧ State.reset.ctx.lenHi = 0x00000000 ∧
  (∀ a, a < 64 → State.reset.ctx.buf.read a = 0x00) ∧
  State.reset.ctx.num = 0x00000000 ∧ State.reset.ctx.mdlen = 0x00000020

/-! ### Invariants and whole-machine rules -/

/-- The invariant of the machine holds at reset; the buffer's canonical form in it is the model's choice of data (log entry
10). -/
def Obligations.InvAtReset : Prop := State.reset.Inv

/-- Every step keeps the invariant: the buffer stays in canonical form, no byte outside `BUF[0..63]` is ever written, and
every response is one the spec allows. The canonical form is the model's choice of data (log entry 10). -/
def Obligations.StepKeepsInv : Prop :=
  ∀ s t : State, s.Inv → step s = .next t → t.Inv

/-- No command but RESTORE makes a well-formed context ill-formed, so `ContextFault` can arise only after a RESTORE. The
spec derives this (R38, R191). -/
def Obligations.OnlyRestoreBreaksWellFormed : Prop :=
  ∀ (i : Instr) (s t : State), (∀ tag image, i ≠ .restore tag image) → s.ctx.WellFormed →
    exec i s = .next t → t.ctx.WellFormed

/-- `NUM = (LEN / 8) mod 64`, which the spec derives for reachable contexts (R38), is kept by ABSORB of any bytes on a
well-formed context, also where `LEN` wraps. -/
def Obligations.AbsorbKeepsNumLenLaw : Prop :=
  ∀ (data : List Byte) (s t : State), s.ctx.WellFormed → s.ctx.num.toNat = lenValue s.ctx / 8 % 64 →
    exec (.absorb data) s = .next t → t.ctx.num.toNat = lenValue t.ctx / 8 % 64

/-- No step ends in a fault, from any state: the buffer accesses the commands make always exist (R192, R193). -/
def Obligations.StepNeverFaults : Prop :=
  ∀ (s : State) (r : Fault), step s ≠ .fault r

/-- The only input a step gives no meaning is a frame whose payload does not have the declared length (R74): no command and
no illegal word is refused. -/
def Obligations.OnlyWrongPayloadLengthIsRefused : Prop :=
  ∀ (s : State) (r : Refusal), step s = .refused r →
    ∃ (f : Frame) (rest : List HostMove) (hd : Header), s.port = .frame f :: rest ∧ decodeWord f.cw = some hd ∧
      f.payload.length ≠ declaredLength hd ∧ r = .payloadLength (declaredLength hd) f.payload.length

/-- The table R191 derives from R130, R165 and R190: every command, on every state, answers a next state with exactly one response, whose status is the
one the table gives; an error leaves the context as it was and has an empty payload (R193). -/
def Obligations.EveryCommandEndsAsTheTableSays : Prop :=
  ∀ (i : Instr) (s : State), ∃ (c : Context) (status : Byte) (payload : List Byte),
    exec i s = .next (answered s c status payload) ∧
    status =
      (match i with
       | .create => 0x00
       | .absorb _ => if s.ctx.num.toNat < 64 ∧ s.ctx.mdlen = 32 then 0x00 else 0x04
       | .digest => if s.ctx.num.toNat < 64 ∧ s.ctx.mdlen = 32 then 0x00 else 0x04
       | .hexdigest => if s.ctx.num.toNat < 64 ∧ s.ctx.mdlen = 32 then 0x00 else 0x04
       | .snapshot => 0x00
       | .restore tag image =>
         if tag ≠ [0x73, 0x68, 0x61, 0x32, 0x35, 0x36] then 0x01
         else if image.length = 112 ∨ image.length = 120 then 0x00 else 0x02 : Byte) ∧
    (status ≠ 0x00 → c = s.ctx ∧ payload = [])

/-- An error changes nothing: in a step over any frame whose response has a status other than `OK`, the response payload is
empty and every register and every buffer byte holds what it held before (R193). -/
def Obligations.ErrorChangesNothing : Prop :=
  ∀ (s t : State) (f : Frame) (rest : List HostMove) (r : Response), s.port = .frame f :: rest →
    step s = .next t → t.responses = s.responses ++ [r] → r.status ≠ 0x00 →
    r.payload = [] ∧ t.ctx = s.ctx ∧ t.port = rest

/-- A command is a function of the context and its operands: on two states with the same context it leaves the same context
and gives the same response, whatever was answered before and whatever the host has still to send; in particular an
earlier error has left no trace (R17, R194). -/
def Obligations.CommandDependsOnContextAlone : Prop :=
  ∀ (i : Instr) (s₁ s₂ : State), s₁.ctx = s₂.ctx →
    ∃ (c : Context) (status : Byte) (payload : List Byte),
      exec i s₁ = .next (answered s₁ c status payload) ∧ exec i s₂ = .next (answered s₂ c status payload)

/-- The writers of the context: a step that changes the context is a reset or a frame of CREATE, ABSORB or RESTORE
(R21). -/
def Obligations.OnlyWritersChangeContext : Prop :=
  ∀ s t : State, step s = .next t → t.ctx ≠ s.ctx →
    ∃ (m : HostMove) (rest : List HostMove), s.port = m :: rest ∧
      ((∃ p, m = .reset p) ∨
        ∃ f, m = .frame f ∧
          (decode f = .ok .create ∨ (∃ data, decode f = .ok (.absorb data)) ∨
            ∃ tag image, decode f = .ok (.restore tag image)))

/-! ### CREATE -/

/-- CREATE, the command of the word 0x00000001, from any context, well-formed or not: every field takes the value of R131,
the response is `(OK, [])`, and the context is the one reset gives (R220), so CREATE after reset or after CREATE changes
nothing. -/
def Obligations.CreateMakesFreshContext : Prop :=
  decode ⟨0x00000001, []⟩ = .ok .create ∧
  ∀ s : State, ∃ c : Context, exec .create s = .next (answered s c 0x00 []) ∧
    c.h = ⟨0x6a09e667, 0xbb67ae85, 0x3c6ef372, 0xa54ff53a, 0x510e527f, 0x9b05688c, 0x1f83d9ab, 0x5be0cd19⟩ ∧
    c.lenLo = 0 ∧ c.lenHi = 0 ∧ (∀ a, a < 64 → c.buf.read a = 0x00) ∧ c.num = 0 ∧ c.mdlen = 32 ∧
    c = State.reset.ctx

/-! ### ABSORB -/

/-- ABSORB on a well-formed context completes, and its whole effect is this (R132 to R136). Let `n` be `NUM` on entry and
`m` the buffered bytes followed by the payload. `H` takes the compression of each whole 64-byte block of `m` in order; `LEN`
grows by 8 for each payload byte modulo 2^64; `NUM` becomes the number of bytes left over; `MDLEN` stays; the bytes left
over stand at the start of the buffer, the bytes above them are those of the last compressed block, or the old ones where
no block was compressed; no byte outside the buffer is written; the response is `(OK, [])`. -/
def Obligations.AbsorbEffect : Prop :=
  ∀ (data : List Byte) (s : State), s.ctx.WellFormed → s.ctx.buf.wf = true →
    ∃ c : Context, exec (.absorb data) s = .next (answered s c 0x00 []) ∧
      (let n := s.ctx.num.toNat
       let m := s.ctx.buf.bytes 0 n ++ data
       c.h = (List.range ((n + data.length) / 64)).foldl (fun h k => compress h (slice m (64 * k) 64)) s.ctx.h ∧
       lenValue c = (lenValue s.ctx + 8 * data.length) % 2 ^ 64 ∧
       c.num.toNat = (n + data.length) % 64 ∧
       c.mdlen = s.ctx.mdlen ∧
       ∀ a, c.buf.read a =
         if 64 ≤ a then s.ctx.buf.read a
         else if a < (n + data.length) % 64 then byteAt m (64 * ((n + data.length) / 64) + a)
         else if 64 ≤ n + data.length then byteAt m (64 * ((n + data.length) / 64 - 1) + a)
         else s.ctx.buf.read a)

/-- The law of `LEN`: ABSORB of `N` bytes adds `8·N` to the 64-bit counter, the carry out of bit 63 is lost, and the two
halves hold bits 31:0 and 63:32 (R26). -/
def Obligations.AbsorbAdvancesLen : Prop :=
  ∀ (data : List Byte) (s : State), s.ctx.WellFormed →
    ∃ c : Context, exec (.absorb data) s = .next (answered s c 0x00 []) ∧
      c.lenLo.toNat = (s.ctx.lenHi.toNat * 2 ^ 32 + s.ctx.lenLo.toNat + 8 * data.length) % 2 ^ 32 ∧
      c.lenHi.toNat =
        (s.ctx.lenHi.toNat * 2 ^ 32 + s.ctx.lenLo.toNat + 8 * data.length) % 2 ^ 64 / 2 ^ 32

/-- The byte step of ABSORB: one byte goes to `BUF[NUM]`, no other buffer byte is written, and `NUM` grows by 1; the 64th
byte has the whole buffer compressed into `H` and sets `NUM` to 0 in the same command, and the buffer still holds its 64
bytes (R133, R135). -/
def Obligations.AbsorbOneByte : Prop :=
  ∀ (b : Byte) (s : State), s.ctx.WellFormed → s.ctx.buf.wf = true →
    ∃ c : Context, exec (.absorb [b]) s = .next (answered s c 0x00 []) ∧
      (∀ a, c.buf.read a = if a = s.ctx.num.toNat then b else s.ctx.buf.read a) ∧
      (s.ctx.num.toNat ≠ 63 → c.h = s.ctx.h ∧ c.num.toNat = s.ctx.num.toNat + 1) ∧
      (s.ctx.num.toNat = 63 → c.h = compress s.ctx.h (c.buf.bytes 0 64) ∧ c.num = 0)

/-- The frame of ABSORB: payload byte `i` goes to buffer index `(NUM + i) mod 64` (R133; R139 derives the index); every other buffer byte reads as
before, `MDLEN` is unchanged, `H` is unchanged where the bytes do not fill the buffer, and the port is as the command
found it. -/
def Obligations.AbsorbFrame : Prop :=
  ∀ (data : List Byte) (s t : State), s.ctx.WellFormed → s.ctx.buf.wf = true → exec (.absorb data) s = .next t →
    (∀ a, (∀ i, i < data.length → a ≠ (s.ctx.num.toNat + i) % 64) → t.ctx.buf.read a = s.ctx.buf.read a) ∧
    t.ctx.mdlen = s.ctx.mdlen ∧ (data.length < 64 - s.ctx.num.toNat → t.ctx.h = s.ctx.h) ∧ t.port = s.port

/-- ABSORB of no bytes on a well-formed context changes nothing of the context (R136 (a)). -/
def Obligations.AbsorbNothingIsNoop : Prop :=
  ∀ s : State, s.ctx.WellFormed → exec (.absorb []) s = .next (answered s s.ctx 0x00 [])

/-- A context is well-formed when `NUM < 64` and `MDLEN = 32`, and nothing else is asked of it (R37): on an ill-formed
context ABSORB, DIGEST and HEXDIGEST answer `ContextFault` and change nothing, for every payload, the empty one included;
on a well-formed one they answer `OK`; CREATE, SNAPSHOT and RESTORE work on any context. -/
def Obligations.IllFormedContextFaults : Prop :=
  ∀ s : State,
    ((64 ≤ s.ctx.num.toNat ∨ s.ctx.mdlen ≠ 32) →
      (∀ data, exec (.absorb data) s = .next (answered s s.ctx 0x04 [])) ∧
      exec .digest s = .next (answered s s.ctx 0x04 []) ∧
      exec .hexdigest s = .next (answered s s.ctx 0x04 [])) ∧
    ((s.ctx.num.toNat < 64 ∧ s.ctx.mdlen = 32) →
      (∀ data, ∃ c, exec (.absorb data) s = .next (answered s c 0x00 [])) ∧
      (∃ p, exec .digest s = .next (answered s s.ctx 0x00 p)) ∧
      ∃ p, exec .hexdigest s = .next (answered s s.ctx 0x00 p)) ∧
    (∃ c, exec .create s = .next (answered s c 0x00 [])) ∧
    (∃ p, exec .snapshot s = .next (answered s s.ctx 0x00 p)) ∧
    ∀ image : List Byte, (image.length = 112 ∨ image.length = 120) →
      ∃ c, exec (.restore [0x73, 0x68, 0x61, 0x32, 0x35, 0x36] image) s = .next (answered s c 0x00 [])

/-- Chunking independence, which the spec derives (R137): on a well-formed context, ABSORB of `x ++ y` leaves, field for field and in every buffer byte,
the context that ABSORB of `x` and then of `y` leaves. -/
def Obligations.ChunkingIndependence : Prop :=
  ∀ (x y : List Byte) (s : State), s.ctx.WellFormed →
    ∃ cx c : Context, exec (.absorb x) s = .next (answered s cx 0x00 []) ∧
      exec (.absorb y) (answered s cx 0x00 []) = .next (answered (answered s cx 0x00 []) c 0x00 []) ∧
      exec (.absorb (x ++ y)) s = .next (answered s c 0x00 [])

/-! ### DIGEST and HEXDIGEST -/

/-- DIGEST on a well-formed context completes, leaves the context as it was, and responds with the eight words, big-endian,
that come of compressing the one or two padding blocks of R142 into a private copy of `H`, the length field being the
counter as it stands (R140 to R144). -/
def Obligations.DigestResult : Prop :=
  ∀ s : State, s.ctx.WellFormed →
    exec .digest s = .next (answered s s.ctx 0x00
      (let n := s.ctx.num.toNat
       let m := s.ctx.buf.bytes 0 n
       let l8 := be32 s.ctx.lenHi ++ be32 s.ctx.lenLo
       let h := if n ≤ 55 then compress s.ctx.h (m ++ [0x80] ++ List.replicate (55 - n) 0x00 ++ l8)
         else compress (compress s.ctx.h (m ++ [0x80] ++ List.replicate (63 - n) 0x00)) (List.replicate 56 0x00 ++ l8)
       be32 h.h0 ++ be32 h.h1 ++ be32 h.h2 ++ be32 h.h3 ++ be32 h.h4 ++ be32 h.h5 ++ be32 h.h6 ++ be32 h.h7))

/-- The padding of R142 in the source's words: the blocks have 64 bytes each and are, in a row, the buffered bytes, one
0x80 byte, the fewest zeros that make whole blocks, and the 8 bytes of the length field. -/
def Obligations.PaddingIsShortest : Prop :=
  ∀ (m l8 : List Byte), m.length < 64 → l8.length = 8 →
    (∀ b ∈ paddingBlocks m.length m l8, b.length = 64) ∧
    ∃ k, (paddingBlocks m.length m l8).flatten = m ++ [0x80] ++ List.replicate k 0x00 ++ l8 ∧
      ∀ j, j < k → (m.length + 1 + j + 8) % 64 ≠ 0

/-- The unused tail of the buffer is never part of a digest: two well-formed contexts that agree on `H`, `LEN`, `NUM` and
the first `NUM` buffer bytes have the same digest (R142). -/
def Obligations.DigestIgnoresUnusedTail : Prop :=
  ∀ s₁ s₂ : State, s₁.ctx.WellFormed → s₂.ctx.WellFormed → s₁.ctx.h = s₂.ctx.h → s₁.ctx.lenLo = s₂.ctx.lenLo →
    s₁.ctx.lenHi = s₂.ctx.lenHi → s₁.ctx.num = s₂.ctx.num →
    (∀ a, a < s₁.ctx.num.toNat → s₁.ctx.buf.read a = s₂.ctx.buf.read a) →
    ∃ d : List Byte, exec .digest s₁ = .next (answered s₁ s₁.ctx 0x00 d) ∧
      exec .digest s₂ = .next (answered s₂ s₂.ctx 0x00 d)

/-- HEXDIGEST on a well-formed context completes, leaves the context as it was, and responds with the 64 characters of the
hexadecimal form of the 32 bytes DIGEST responds with (R146). -/
def Obligations.HexdigestResult : Prop :=
  ∀ s : State, s.ctx.WellFormed →
    ∃ d : List Byte, exec .digest s = .next (answered s s.ctx 0x00 d) ∧
      exec .hexdigest s = .next (answered s s.ctx 0x00 (hexEncode d)) ∧ d.length = 32 ∧ (hexEncode d).length = 64

/-- `HexEncode`: two characters for each byte, the high nibble first; a nibble up to 9 is the character 0x30 plus its
value, from 10 on the character 0x61 plus its value less 10 (R147). -/
def Obligations.HexEncodeCharacters : Prop :=
  ∀ d : List Byte, (hexEncode d).length = 2 * d.length ∧
    ∀ i, i < d.length →
      (byteAt (hexEncode d) (2 * i)).toNat =
        (let v := (byteAt d i).toNat / 16; if v ≤ 9 then 0x30 + v else 0x61 + v - 10) ∧
      (byteAt (hexEncode d) (2 * i + 1)).toNat =
        (let v := (byteAt d i).toNat % 16; if v ≤ 9 then 0x30 + v else 0x61 + v - 10)

/-- A hexadecimal form stands for one byte sequence only, so HEXDIGEST and DIGEST describe the same bytes (R146). -/
def Obligations.HexEncodeInjective : Prop :=
  ∀ d₁ d₂ : List Byte, hexEncode d₁ = hexEncode d₂ → d₁ = d₂

/-- DIGEST, HEXDIGEST and SNAPSHOT write nothing of the context, on any context, and leave the port as they found it
(R21, R226). -/
def Obligations.ReadersLeaveContext : Prop :=
  ∀ (i : Instr) (s t : State), (i = .digest ∨ i = .hexdigest ∨ i = .snapshot) → exec i s = .next t →
    t.ctx = s.ctx ∧ t.port = s.port

/-! ### Reachable contexts -/

/-- What the spec derives of a reachable context that has absorbed the bytes `m`: `H` is `H_INIT` after the compressions of the first
`q = floor(len m / 64)` blocks, `LEN = 8·len m mod 2^64`, `NUM = len m mod 64`, `MDLEN = 32` (R38), and the buffer holds the
bytes of the current partial block, above them those of the block before, or zeros where there was none (R33). -/
def Obligations.ReachableContextIsDetermined : Prop :=
  ∀ (m : List Byte) (c : Context), Reachable m c →
    c.h = hashBlocks hInit m ∧ lenValue c = 8 * m.length % 2 ^ 64 ∧ c.num.toNat = m.length % 64 ∧ c.mdlen = 32 ∧
    ∀ a, a < 64 → c.buf.read a =
      if a < m.length % 64 then byteAt m (64 * (m.length / 64) + a)
      else if 64 ≤ m.length then byteAt m (64 * (m.length / 64 - 1) + a) else 0x00

/-- The incremental commands compute SHA-256: on a reachable context, however the bytes were split over ABSORB commands,
DIGEST completes and responds with SHA-256 of all the bytes absorbed since the CREATE or reset, the bit length being taken
modulo 2^64 (R137, R145). -/
def Obligations.ReachableDigestIsSha256 : Prop :=
  ∀ (m : List Byte) (s : State), Reachable m s.ctx →
    exec .digest s = .next (answered s s.ctx 0x00 (sha256 m))

/-! ### The Compression Core -/

/-- The message schedule: 64 words, the first 16 the big-endian words of the block, each later one by the recurrence of
R106. -/
def Obligations.ScheduleRecurrence : Prop :=
  ∀ block : List Byte, block.length = 64 →
    (schedule block).length = 64 ∧
    (∀ t, t < 16 → ((schedule block).getD t 0).toNat =
      (byteAt block (4 * t)).toNat * 2 ^ 24 + (byteAt block (4 * t + 1)).toNat * 2 ^ 16 +
        (byteAt block (4 * t + 2)).toNat * 2 ^ 8 + (byteAt block (4 * t + 3)).toNat) ∧
    ∀ t, 16 ≤ t → t < 64 → (schedule block).getD t 0 =
      ssig1 ((schedule block).getD (t - 2) 0) + (schedule block).getD (t - 7) 0 +
        ssig0 ((schedule block).getD (t - 15) 0) + (schedule block).getD (t - 16) 0

/-- The rounds and the feed-forward: there is a sequence of working variables that starts at the state words, goes from
round `t` to the next as R107 says, with `K[t]` and `W[t]`, and whose last member is added to the prior state word by word
(R107, R108). -/
def Obligations.CompressRoundsAndFeedForward : Prop :=
  ∀ (s : HashWords) (block : List Byte), block.length = 64 →
    ∃ v : Nat → WorkVars,
      v 0 = ⟨s.h0, s.h1, s.h2, s.h3, s.h4, s.h5, s.h6, s.h7⟩ ∧
      (∀ t, t < 64 → ∃ t1 t2 : Word,
        t1 = (v t).h + bsig1 (v t).e + ch (v t).e (v t).f (v t).g + roundConstants.getD t 0 +
          (schedule block).getD t 0 ∧
        t2 = bsig0 (v t).a + maj (v t).a (v t).b (v t).c ∧
        v (t + 1) = ⟨t1 + t2, (v t).a, (v t).b, (v t).c, (v t).d + t1, (v t).e, (v t).f, (v t).g⟩) ∧
      compress s block = ⟨s.h0 + (v 64).a, s.h1 + (v 64).b, s.h2 + (v 64).c, s.h3 + (v 64).d, s.h4 + (v 64).e,
        s.h5 + (v 64).f, s.h6 + (v 64).g, s.h7 + (v 64).h⟩

/-- `Ch` chooses bit by bit between its second and third argument, `Maj` is the majority bit by bit (R105). -/
def Obligations.ChoiceAndMajorityBitwise : Prop :=
  ∀ (x y z : Word) (i : Nat), i < 32 →
    (ch x y z).getLsbD i = (if x.getLsbD i then y.getLsbD i else z.getLsbD i) ∧
    (maj x y z).getLsbD i =
      decide (2 ≤ (x.getLsbD i).toNat + (y.getLsbD i).toNat + (z.getLsbD i).toNat)

/-- The shift and the rotation by `n`, `0 < n < 32`, in the arithmetic of R12: `shr` divides by `2^n`; `rotr` re-enters the
bits that leave at bit 0 at the top. -/
def Obligations.ShiftAndRotateArithmetic : Prop :=
  ∀ (x : Word) (n : Nat), 0 < n → n < 32 →
    (shr x n).toNat = x.toNat / 2 ^ n ∧
    (rotr x n).toNat = x.toNat / 2 ^ n + x.toNat * 2 ^ (32 - n) % 2 ^ 32

/-- The four sigma functions bit by bit: the rotation and shift amounts of R105, written out. -/
def Obligations.SigmaFunctionsBitwise : Prop :=
  ∀ (x : Word) (i : Nat), i < 32 →
    (bsig0 x).getLsbD i = ((x.getLsbD ((i + 2) % 32) ^^ x.getLsbD ((i + 13) % 32)) ^^ x.getLsbD ((i + 22) % 32)) ∧
    (bsig1 x).getLsbD i = ((x.getLsbD ((i + 6) % 32) ^^ x.getLsbD ((i + 11) % 32)) ^^ x.getLsbD ((i + 25) % 32)) ∧
    (ssig0 x).getLsbD i = ((x.getLsbD ((i + 7) % 32) ^^ x.getLsbD ((i + 18) % 32)) ^^ x.getLsbD (i + 3)) ∧
    (ssig1 x).getLsbD i = ((x.getLsbD ((i + 17) % 32) ^^ x.getLsbD ((i + 19) % 32)) ^^ x.getLsbD (i + 10))

/-- The eight initial words are the first 32 bits of the fractional parts of the square roots of the first eight primes, in
order (R104): for the prime `p` in place `i` there is a whole part `q` with `(q + H_INIT[i]/2^32)^2 ≤ p` and
`p < (q + (H_INIT[i]+1)/2^32)^2`. -/
def Obligations.InitialWordsAreSquareRoots : Prop :=
  ∀ hp ∈ (hashList hInit).zip [2, 3, 5, 7, 11, 13, 17, 19],
    ∃ q, q < 5 ∧ (q * 2 ^ 32 + hp.1.toNat) ^ 2 ≤ hp.2 * 2 ^ 64 ∧ hp.2 * 2 ^ 64 < (q * 2 ^ 32 + hp.1.toNat + 1) ^ 2

/-- The 64 round constants are the first 32 bits of the fractional parts of the cube roots of the first 64 primes, in order
(R103): for the prime `p` in place `t` there is a whole part `q` with `(q + K[t]/2^32)^3 ≤ p < (q + (K[t]+1)/2^32)^3`. -/
def Obligations.RoundConstantsAreCubeRoots : Prop :=
  roundConstants.length = 64 ∧
  ∀ kp ∈ roundConstants.zip
      [2, 3, 5, 7, 11, 13, 17, 19, 23, 29, 31, 37, 41, 43, 47, 53, 59, 61, 67, 71, 73, 79, 83, 89, 97, 101, 103, 107, 109,
        113, 127, 131, 137, 139, 149, 151, 157, 163, 167, 173, 179, 181, 191, 193, 197, 199, 211, 223, 227, 229, 233, 239,
        241, 251, 257, 263, 269, 271, 277, 281, 283, 293, 307, 311],
    ∃ q, q < 7 ∧ (q * 2 ^ 32 + kp.1.toNat) ^ 3 ≤ kp.2 * 2 ^ 96 ∧ kp.2 * 2 ^ 96 < (q * 2 ^ 32 + kp.1.toNat + 1) ^ 3

/-! ### SNAPSHOT and RESTORE -/

/-- SNAPSHOT, the command of the word 0x00000005, on any context, ill-formed ones included, completes, leaves the context as it was, and responds with the tag
length 6, the tag "sha256" and the 112 bytes of R161: every field as it stands, little-endian, the 64 buffer bytes whatever
`NUM` is. -/
def Obligations.SnapshotResult : Prop :=
  decode ⟨0x00000005, []⟩ = .ok .snapshot ∧
  ∀ s : State, exec .snapshot s = .next (answered s s.ctx 0x00
    ([0x06, 0x73, 0x68, 0x61, 0x32, 0x35, 0x36] ++
      (le32 s.ctx.h.h0 ++ le32 s.ctx.h.h1 ++ le32 s.ctx.h.h2 ++ le32 s.ctx.h.h3 ++ le32 s.ctx.h.h4 ++ le32 s.ctx.h.h5 ++
        le32 s.ctx.h.h6 ++ le32 s.ctx.h.h7 ++ le32 s.ctx.lenLo ++ le32 s.ctx.lenHi ++
        (List.range 64).map (fun a => s.ctx.buf.read a) ++ le32 s.ctx.num ++ le32 s.ctx.mdlen)))

/-- The image layout of R55 for both values of the open parameter `SNAP_BYTE_ORDER`: 112 bytes, each 4-byte field at its
offset in the byte order, buffer byte `i` at offset `40 + i`. -/
def Obligations.ImageLayout : Prop :=
  ∀ (o : ByteOrder) (c : Context),
    (serialize o c).length = 112 ∧
    (∀ i, i < 8 → slice (serialize o c) (4 * i) 4 = snap32 o ((hashList c.h).getD i 0)) ∧
    slice (serialize o c) 32 4 = snap32 o c.lenLo ∧ slice (serialize o c) 36 4 = snap32 o c.lenHi ∧
    (∀ i, i < 64 → byteAt (serialize o c) (40 + i) = c.buf.read i) ∧
    slice (serialize o c) 104 4 = snap32 o c.num ∧ slice (serialize o c) 108 4 = snap32 o c.mdlen

/-- Image bytes 32 to 39 of this hardware are the little-endian number `LEN` (derived by the spec in R57 from R25 and
R55). -/
def Obligations.ImageHoldsLenLittleEndian : Prop :=
  ∀ c : Context,
    lenValue c =
      (byteAt (serialize .little c) 32).toNat + (byteAt (serialize .little c) 33).toNat * 2 ^ 8 +
        (byteAt (serialize .little c) 34).toNat * 2 ^ 16 + (byteAt (serialize .little c) 35).toNat * 2 ^ 24 +
        (byteAt (serialize .little c) 36).toNat * 2 ^ 32 + (byteAt (serialize .little c) 37).toNat * 2 ^ 40 +
        (byteAt (serialize .little c) 38).toNat * 2 ^ 48 + (byteAt (serialize .little c) 39).toNat * 2 ^ 56

/-- RESTORE of a pair that passes both checks completes on any context, well-formed or not, and overwrites the whole context
from image bytes 0 to 111: each word is the little-endian number at its offset, each buffer byte the image byte at
`40 + i`, no value is checked, and nothing of the old context is left; the response is `(OK, [])` (R165, R169). That the
buffer has the canonical form is the model's choice of data (log entry 10). -/
def Obligations.RestoreResult : Prop :=
  ∀ (image : List Byte) (s : State), (image.length = 112 ∨ image.length = 120) →
    ∃ c : Context, exec (.restore [0x73, 0x68, 0x61, 0x32, 0x35, 0x36] image) s = .next (answered s c 0x00 []) ∧
      (let word := fun k => (byteAt image (k + 3)).toNat * 2 ^ 24 + (byteAt image (k + 2)).toNat * 2 ^ 16 +
         (byteAt image (k + 1)).toNat * 2 ^ 8 + (byteAt image k).toNat
       c.h.h0.toNat = word 0 ∧ c.h.h1.toNat = word 4 ∧ c.h.h2.toNat = word 8 ∧ c.h.h3.toNat = word 12 ∧
       c.h.h4.toNat = word 16 ∧ c.h.h5.toNat = word 20 ∧ c.h.h6.toNat = word 24 ∧ c.h.h7.toNat = word 28 ∧
       c.lenLo.toNat = word 32 ∧ c.lenHi.toNat = word 36 ∧
       (∀ a, a < 64 → c.buf.read a = byteAt image (40 + a)) ∧ c.buf.wf = true ∧
       c.num.toNat = word 104 ∧ c.mdlen.toNat = word 108)

/-- A tag other than the six bytes of "sha256" is answered `UnsupportedAlgorithm`, whatever the image is, and the context
is not changed; the tag itself is never answered so (R166). -/
def Obligations.WrongTagIsUnsupportedAlgorithm : Prop :=
  ∀ (tag image : List Byte) (s : State),
    (tag ≠ [0x73, 0x68, 0x61, 0x32, 0x35, 0x36] →
      exec (.restore tag image) s = .next (answered s s.ctx 0x01 [])) ∧
    (tag = [0x73, 0x68, 0x61, 0x32, 0x35, 0x36] →
      ∃ c status, exec (.restore tag image) s = .next (answered s c status []) ∧ status ≠ 0x01)

/-- With the right tag an image of 112 or of 120 bytes is accepted; one of any other length is answered `MalformedState`,
and the context is not changed (R167). -/
def Obligations.WrongLengthIsMalformedState : Prop :=
  ∀ (image : List Byte) (s : State),
    ((image.length = 112 ∨ image.length = 120) →
      ∃ c, exec (.restore [0x73, 0x68, 0x61, 0x32, 0x35, 0x36] image) s = .next (answered s c 0x00 [])) ∧
    ((image.length ≠ 112 ∧ image.length ≠ 120) →
      exec (.restore [0x73, 0x68, 0x61, 0x32, 0x35, 0x36] image) s = .next (answered s s.ctx 0x02 []))

/-- The legacy oversize form: an image of 120 bytes does exactly what its first 112 bytes do, whatever the last 8 bytes
hold (R168). -/
def Obligations.OversizeBytesAreDiscarded : Prop :=
  ∀ (image extra : List Byte) (s : State), image.length = 112 → extra.length = 8 →
    ∃ c : Context,
      exec (.restore [0x73, 0x68, 0x61, 0x32, 0x35, 0x36] (image ++ extra)) s = .next (answered s c 0x00 []) ∧
      exec (.restore [0x73, 0x68, 0x61, 0x32, 0x35, 0x36] image) s = .next (answered s c 0x00 [])

/-- Round trip, which the spec derives (R170): RESTORE, on any state, of the image SNAPSHOT gives leaves exactly the context
of the snapshot, every register and every buffer byte. The premise is the model's canonical form of the buffer, which every step keeps. -/
def Obligations.RestoreAfterSnapshot : Prop :=
  ∀ s s' : State, s.ctx.buf.wf = true →
    ∃ image : List Byte,
      exec .snapshot s = .next (answered s s.ctx 0x00 ([0x06, 0x73, 0x68, 0x61, 0x32, 0x35, 0x36] ++ image)) ∧
      exec (.restore [0x73, 0x68, 0x61, 0x32, 0x35, 0x36] image) s' = .next (answered s' s.ctx 0x00 [])

/-- The other direction, which the spec derives as well (R170): SNAPSHOT after RESTORE of a 112-byte image gives that image back. -/
def Obligations.SnapshotAfterRestore : Prop :=
  ∀ (image : List Byte) (s : State), image.length = 112 →
    ∃ c : Context, exec (.restore [0x73, 0x68, 0x61, 0x32, 0x35, 0x36] image) s = .next (answered s c 0x00 []) ∧
      exec .snapshot (answered s c 0x00 []) = .next (answered (answered s c 0x00 []) c 0x00
        ([0x06, 0x73, 0x68, 0x61, 0x32, 0x35, 0x36] ++ image))

/-- The codec is a bijection between contexts and 112-byte sequences, for both values of the open parameter
`SNAP_BYTE_ORDER` (derived by the spec in R170). -/
def Obligations.CodecIsBijective : Prop :=
  ∀ o : ByteOrder, (∀ c : Context, c.buf.wf = true → deserialize o (serialize o c) = c) ∧
    ∀ image : List Byte, image.length = 112 → serialize o (deserialize o image) = image

/-! ### The facade -/

/-- `UPDATE bytes`: the expansion consists of well-formed commands, and running them one after the other on a well-formed
context leaves the context that one ABSORB of all the bytes would leave (R83). Where a long UPDATE is cut is the model's choice
(log entry 14); how many responses the pieces give is not stated. -/
def Obligations.UpdateExpansionAbsorbsAll : Prop :=
  ∀ (bytes : List Byte) (s : State), s.ctx.WellFormed →
    (∀ i ∈ expandUpdate bytes, i.wellFormed = true) ∧
    ∃ (c : Context) (rs : List Response), exec (.absorb bytes) s = .next (answered s c 0x00 []) ∧
      runCommands (expandUpdate bytes) s = .next { ctx := c, port := s.port, responses := s.responses ++ rs }

/-- `HASH bytes`, on any context, well-formed or not: the last response is SHA-256 of the bytes (R83). Where a long
UPDATE is cut is the model's choice (log entry 14). -/
def Obligations.HashExpansionIsSha256 : Prop :=
  ∀ (bytes : List Byte) (s : State), ∃ (c : Context) (rs : List Response),
    runCommands (expandHash bytes) s =
      .next { ctx := c, port := s.port, responses := s.responses ++ rs ++ [⟨0x00, sha256 bytes⟩] }

/-- `RESTORE name` with `name = SNAPSHOT`: the expansion cuts tag and image out of the response payload, and running it on
any state leaves exactly the context of the snapshot (R83, R80). -/
def Obligations.RestoreOfSnapshotResponse : Prop :=
  ∀ s s' : State, s.ctx.buf.wf = true →
    ∃ p : List Byte, exec .snapshot s = .next (answered s s.ctx 0x00 p) ∧
      runCommands (expandRestore p) s' = .next (answered s' s.ctx 0x00 [])

/-- The assembler of R82, and its inverse the decoder: a command assembles to a frame exactly when the frame decodes to the
command, and it does not assemble exactly when an operand is too long for its field, in which case no frame at all is the
command. -/
def Obligations.AssemblerInvertsDecoder : Prop :=
  ∀ i : Instr, (∀ f : Frame, assemble i = some f ↔ decode f = .ok i) ∧
    (assemble i = none ↔
      (match i with
       | .absorb data => 16777215 < data.length
       | .restore tag image => 255 < tag.length ∨ 65535 < image.length
       | .create | .digest | .hexdigest | .snapshot => False))

/-! ### The open parameter -/

/-- The hardware as a function of its open parameter `SNAP_BYTE_ORDER` (R8): for each value SNAPSHOT and RESTORE complete with
the image fields in that order and the same errors as ever, and nothing else changes (R54). The other four commands are those
of `exec`; a step runs the decoded command; at `little` commands, step and machine are this hardware's. -/
def Obligations.ByteOrderIsAParameter : Prop :=
  (∀ o : ByteOrder, ∀ s : State,
    execIn o .snapshot s = .next (answered s s.ctx 0x00
      ([0x06, 0x73, 0x68, 0x61, 0x32, 0x35, 0x36] ++
        ((hashList s.ctx.h).flatMap (snap32 o) ++ snap32 o s.ctx.lenLo ++ snap32 o s.ctx.lenHi ++
          (List.range 64).map (fun a => s.ctx.buf.read a) ++ snap32 o s.ctx.num ++ snap32 o s.ctx.mdlen))) ∧
    (∀ image : List Byte, (image.length = 112 ∨ image.length = 120) → ∃ c : Context,
      execIn o (.restore [0x73, 0x68, 0x61, 0x32, 0x35, 0x36] image) s = .next (answered s c 0x00 []) ∧
      (∀ i, i < 8 → (hashList c.h).getD i 0 = snap32dec o (slice image (4 * i) 4)) ∧
      c.lenLo = snap32dec o (slice image 32 4) ∧ c.lenHi = snap32dec o (slice image 36 4) ∧
      (∀ a, a < 64 → c.buf.read a = byteAt image (40 + a)) ∧
      c.num = snap32dec o (slice image 104 4) ∧ c.mdlen = snap32dec o (slice image 108 4)) ∧
    (∀ image : List Byte, image.length ≠ 112 → image.length ≠ 120 →
      execIn o (.restore [0x73, 0x68, 0x61, 0x32, 0x35, 0x36] image) s = .next (answered s s.ctx 0x02 [])) ∧
    (∀ tag image : List Byte, tag ≠ [0x73, 0x68, 0x61, 0x32, 0x35, 0x36] →
      execIn o (.restore tag image) s = .next (answered s s.ctx 0x01 [])) ∧
    (∀ i : Instr, i ≠ .snapshot → (∀ tag image, i ≠ .restore tag image) → execIn o i s = exec i s) ∧
    ∀ (f : Frame) (rest : List HostMove) (i : Instr), s.port = .frame f :: rest → decode f = .ok i →
      stepIn o s = execIn o i { s with port := rest }) ∧
  execIn .little = exec ∧ stepIn .little = step ∧ coreIn .little = Sys2Proof.core

/-- RESTORE cannot tell the byte order of an image (R54). For every pair of values of `SNAP_BYTE_ORDER`: the image SNAPSHOT
gives on hardware with the one is accepted on hardware with the other, on any state. Where the two are equal, exactly the
context of the snapshot is left (with its buffer in the model's canonical form, log entry 10), so the round trip holds for
both values. Where they differ, every word is loaded byte-swapped, the buffer bytes as they are, and a context with
`MDLEN = 32` is loaded as an ill-formed one, which ABSORB, DIGEST and HEXDIGEST answer with `ContextFault`. -/
def Obligations.ForeignImageIsLoadedByteSwapped : Prop :=
  ∀ (o o' : ByteOrder) (s s' : State), s.ctx.buf.wf = true →
    ∃ (image : List Byte) (c : Context),
      execIn o .snapshot s = .next (answered s s.ctx 0x00 ([0x06, 0x73, 0x68, 0x61, 0x32, 0x35, 0x36] ++ image)) ∧
      execIn o' (.restore [0x73, 0x68, 0x61, 0x32, 0x35, 0x36] image) s' = .next (answered s' c 0x00 []) ∧
      (o' = o → c = s.ctx) ∧
      (o' ≠ o →
        hashList c.h = (hashList s.ctx.h).map swapWord ∧ c.lenLo = swapWord s.ctx.lenLo ∧
        c.lenHi = swapWord s.ctx.lenHi ∧ (∀ a, a < 64 → c.buf.read a = s.ctx.buf.read a) ∧
        c.num = swapWord s.ctx.num ∧ c.mdlen = swapWord s.ctx.mdlen ∧
        (s.ctx.mdlen = 32 → ∀ i : Instr, ((∃ data, i = .absorb data) ∨ i = .digest ∨ i = .hexdigest) →
          execIn o' i (answered s' c 0x00 []) = .next (answered (answered s' c 0x00 []) c 0x04 [])))
end

