-- ==== Sys2Proof/Laws/Bytes.lean ====
section
/-! SUPPORT. The laws of bytes and words: the two byte orders are each undone by their decoding, in both directions, and
what the byte sequences of a position or a slice are. -/

namespace Sys2Proof.Machine

@[simp] theorem length_be32 (v : Word) : (be32 v).length = 4 := rfl
@[simp] theorem length_le32 (v : Word) : (le32 v).length = 4 := rfl
@[simp] theorem length_snap32 (o : ByteOrder) (v : Word) : (snap32 o v).length = 4 := by cases o <;> rfl
@[simp] theorem length_zeros (n : Nat) : (zeros n).length = n := List.length_replicate

@[simp] theorem length_slice (s : List Byte) (i n : Nat) : (slice s i n).length = min n (s.length - i) := by
  simp [slice]

/-- A position of a slice is a position of the sequence. -/
theorem byteAt_slice (s : List Byte) (i n k : Nat) (hk : k < n) : byteAt (slice s i n) k = byteAt s (i + k) := by
  simp [byteAt, slice, List.getD_eq_getElem?_getD, hk]

/-- A position of a sequence put together of two. -/
theorem byteAt_append (s t : List Byte) (i : Nat) :
    byteAt (s ++ t) i = if i < s.length then byteAt s i else byteAt t (i - s.length) := by
  split_ifs with h
  · simp [byteAt, List.getD_eq_getElem?_getD, List.getElem?_append_left h]
  · simp [byteAt, List.getD_eq_getElem?_getD, List.getElem?_append_right (not_lt.1 h)]

/-- Two sequences of one length with the same bytes are the same. -/
theorem ext_byteAt {s t : List Byte} (hl : s.length = t.length) (h : ∀ i, i < s.length → byteAt s i = byteAt t i) :
    s = t := by
  refine List.ext_getElem hl fun i h₁ h₂ => ?_
  simpa [byteAt, List.getD_eq_getElem?_getD, h₁, h₂] using h i h₁

/-- A slice that lies in the first part of a sequence put together of two. -/
theorem slice_append_left {s t : List Byte} {i n : Nat} (h : i + n ≤ s.length) : slice (s ++ t) i n = slice s i n := by
  refine ext_byteAt (by simp; omega) fun k hk => ?_
  have hk' : k < n := by simp at hk; omega
  rw [byteAt_slice _ _ _ _ hk', byteAt_slice _ _ _ _ hk', byteAt_append, if_pos (by omega)]

/-- A slice that lies in the second part of a sequence put together of two. -/
theorem slice_append_right {s t : List Byte} {i n : Nat} (h : s.length ≤ i) :
    slice (s ++ t) i n = slice t (i - s.length) n := by
  refine ext_byteAt (by simp; omega) fun k hk => ?_
  have hk' : k < n := by simp at hk; omega
  rw [byteAt_slice _ _ _ _ hk', byteAt_slice _ _ _ _ hk', byteAt_append, if_neg (by omega)]
  congr 1
  omega

/-- The slice that is the whole sequence. -/
theorem slice_all {s : List Byte} {n : Nat} (h : s.length = n) : slice s 0 n = s := by simp [slice, ← h]

/-- Consecutive slices are one slice. -/
theorem slice_append_slice (s : List Byte) (i n k : Nat) : slice s i n ++ slice s (i + n) k = slice s i (n + k) := by
  rw [slice, slice, slice, List.take_add, List.drop_drop]

/-- The value of the bytes `b₃ b₂ b₁ b₀`, most significant first (spec/00_scope.md R11). -/
theorem toNat_append4 (b₃ b₂ b₁ b₀ : Byte) :
    (b₃ ++ b₂ ++ b₁ ++ b₀ : Word).toNat =
      b₃.toNat * 2 ^ 24 + b₂.toNat * 2 ^ 16 + b₁.toNat * 2 ^ 8 + b₀.toNat := by
  simp only [BitVec.toNat_append]
  rw [← Nat.shiftLeft_add_eq_or_of_lt b₂.isLt, ← Nat.shiftLeft_add_eq_or_of_lt b₁.isLt,
    ← Nat.shiftLeft_add_eq_or_of_lt b₀.isLt]
  simp only [Nat.shiftLeft_eq]
  ring

/-- `be32dec` as the sum of R11. -/
theorem toNat_be32dec (b : List Byte) :
    (be32dec b).toNat = (byteAt b 0).toNat * 2 ^ 24 + (byteAt b 1).toNat * 2 ^ 16 + (byteAt b 2).toNat * 2 ^ 8 +
      (byteAt b 3).toNat :=
  toNat_append4 _ _ _ _

/-- `le32dec` as the sum of R11. -/
theorem toNat_le32dec (b : List Byte) :
    (le32dec b).toNat = (byteAt b 3).toNat * 2 ^ 24 + (byteAt b 2).toNat * 2 ^ 16 + (byteAt b 1).toNat * 2 ^ 8 +
      (byteAt b 0).toNat :=
  toNat_append4 _ _ _ _

/-- The four bytes of a word, put together again. -/
theorem append_extract4 (v : Word) :
    (v.extractLsb' 24 8 ++ v.extractLsb' 16 8 ++ v.extractLsb' 8 8 ++ v.extractLsb' 0 8 : Word) = v := by
  apply BitVec.eq_of_toNat_eq
  rw [toNat_append4]
  simp only [BitVec.extractLsb'_toNat, Nat.shiftRight_eq_div_pow]
  have := v.isLt
  omega

/-- The bytes of four bytes put together. -/
theorem extract_append4 (b₃ b₂ b₁ b₀ : Byte) :
    (b₃ ++ b₂ ++ b₁ ++ b₀ : Word).extractLsb' 24 8 = b₃ ∧ (b₃ ++ b₂ ++ b₁ ++ b₀ : Word).extractLsb' 16 8 = b₂ ∧
      (b₃ ++ b₂ ++ b₁ ++ b₀ : Word).extractLsb' 8 8 = b₁ ∧ (b₃ ++ b₂ ++ b₁ ++ b₀ : Word).extractLsb' 0 8 = b₀ := by
  have h₃ := b₃.isLt
  have h₂ := b₂.isLt
  have h₁ := b₁.isLt
  have h₀ := b₀.isLt
  refine ⟨?_, ?_, ?_, ?_⟩ <;> apply BitVec.eq_of_toNat_eq <;>
    rw [BitVec.extractLsb'_toNat, toNat_append4, Nat.shiftRight_eq_div_pow] <;> omega

@[simp] theorem be32dec_be32 (v : Word) : be32dec (be32 v) = v := append_extract4 v
@[simp] theorem le32dec_le32 (v : Word) : le32dec (le32 v) = v := append_extract4 v

/-- Decoding undoes encoding, in both byte orders. -/
@[simp] theorem snap32dec_snap32 (o : ByteOrder) (v : Word) : snap32dec o (snap32 o v) = v := by
  cases o
  · exact le32dec_le32 v
  · exact be32dec_be32 v

/-- Encoding undoes decoding of four bytes, in both byte orders. -/
theorem snap32_snap32dec (o : ByteOrder) {b : List Byte} (hb : b.length = 4) : snap32 o (snap32dec o b) = b := by
  obtain ⟨b₀, b₁, b₂, b₃, rfl⟩ : ∃ b₀ b₁ b₂ b₃, b = [b₀, b₁, b₂, b₃] := by
    match b, hb with
    | [b₀, b₁, b₂, b₃], _ => exact ⟨_, _, _, _, rfl⟩
  cases o
  · obtain ⟨e₃, e₂, e₁, e₀⟩ := extract_append4 b₃ b₂ b₁ b₀
    simp [snap32, snap32dec, le32, le32dec, byteAt, e₃, e₂, e₁, e₀]
  · obtain ⟨e₃, e₂, e₁, e₀⟩ := extract_append4 b₀ b₁ b₂ b₃
    simp [snap32, snap32dec, be32, be32dec, byteAt, e₃, e₂, e₁, e₀]

/-- A digest has 32 bytes (spec/41_context_ops.md R144). -/
@[simp] theorem length_digestOf (h : HashWords) : (digestOf h).length = 32 := rfl

/-- Two characters for each byte (R147). -/
@[simp] theorem length_hexEncode (d : List Byte) : (hexEncode d).length = 2 * d.length := by
  induction d with
  | nil => rfl
  | cons b d ih => simp only [hexEncode, List.flatMap_cons, List.length_append, List.length_cons] at *; simp; omega

end Sys2Proof.Machine
end

