-- ==== Sys2Proof/Laws/Memory.lean ====
section
/-! SUPPORT. The laws of the block buffer: every operation keeps the canonical form, a read after a write gives the byte
written and a write leaves every other byte alone, and buffers in canonical form with equal bytes are equal. -/

namespace Sys2Proof.Machine

/-- What the canonical form says of the first entry and of the rest. -/
theorem Memory.wf_cons (x : Host.Cell) (m : Memory) :
    Memory.wf (x :: m) = true ↔
      (∀ y ∈ m, x.1 < y.1) ∧ x.1 < 64 ∧ x.2 ≠ Memory.unlisted ∧ Memory.wf m = true := by
  simp [Memory.wf, -Prod.forall]
  tauto

theorem Memory.wf_nil : Memory.wf [] = true := rfl

theorem Memory.read_nil (a : Nat) : Memory.read [] a = Memory.unlisted := rfl

/-- An index before every entry holds the unlisted byte. -/
theorem Memory.read_of_lt {m : Memory} {a : Nat} (h : ∀ y ∈ m, a < y.1) : m.read a = Memory.unlisted := by
  induction m with
  | nil => rfl
  | cons x m ih =>
    have hx := h x (by simp)
    rw [Memory.read, if_neg (by omega), ih fun y hy => h y (by simp [hy])]

/-- A byte outside `BUF[0..63]` is never listed. -/
theorem Memory.read_of_ge {m : Memory} (hm : m.wf = true) {a : Nat} (ha : 64 ≤ a) : m.read a = Memory.unlisted := by
  induction m with
  | nil => rfl
  | cons x m ih =>
    obtain ⟨-, hx, -, hw⟩ := (Memory.wf_cons x m).1 hm
    rw [Memory.read, if_neg (by omega), ih hw]

/-- After a write the entries are old ones or the one written. -/
theorem Memory.mem_write {m : Memory} {a : Nat} {v : Byte} {y : Host.Cell} (h : y ∈ m.write a v) :
    y ∈ m ∨ (y = (a, v) ∧ v ≠ Memory.unlisted) := by
  induction m with
  | nil => by_cases hv : v = Memory.unlisted <;> simp_all [Memory.write]
  | cons x m ih =>
    simp only [Memory.write] at h
    split_ifs at h with h1 h2 h3 h4
    · exact .inl h
    · obtain rfl | h := List.mem_cons.1 h
      · exact .inr ⟨rfl, h2⟩
      · exact .inl h
    · exact .inl (List.mem_cons_of_mem _ h)
    · obtain rfl | h := List.mem_cons.1 h
      · exact .inr ⟨rfl, h4⟩
      · exact .inl (List.mem_cons_of_mem _ h)
    · obtain rfl | h := List.mem_cons.1 h
      · exact .inl (by simp)
      · exact (ih h).imp_left (List.mem_cons_of_mem _)

/-- A write inside the buffer keeps the canonical form. -/
theorem Memory.write_wf {m : Memory} (hm : m.wf = true) {a : Nat} (ha : a < 64) (v : Byte) :
    (m.write a v).wf = true := by
  induction m with
  | nil =>
    by_cases hv : v = Memory.unlisted
    · simp [Memory.write, hv, Memory.wf_nil]
    · simp [Memory.write, hv, Memory.wf_cons, Memory.wf_nil, ha]
  | cons x m ih =>
    obtain ⟨h1, h2, h3, h4⟩ := (Memory.wf_cons x m).1 hm
    simp only [Memory.write]
    split_ifs with c1 c2 c3 c4
    · exact hm
    · refine (Memory.wf_cons _ _).2 ⟨fun y hy => ?_, ha, c2, hm⟩
      obtain rfl | hy := List.mem_cons.1 hy
      · exact c1
      · exact c1.trans (h1 y hy)
    · exact h4
    · exact (Memory.wf_cons _ _).2 ⟨fun y hy => c3 ▸ h1 y hy, ha, c4, h4⟩
    · refine (Memory.wf_cons _ _).2 ⟨fun y hy => ?_, h2, h3, ih h4⟩
      obtain hy | ⟨rfl, -⟩ := Memory.mem_write hy
      · exact h1 y hy
      · simp only; omega

/-- A read after a write: the byte written at its index, the old byte everywhere else. -/
theorem Memory.read_write {m : Memory} (hm : m.wf = true) (a : Nat) (v : Byte) (b : Nat) :
    (m.write a v).read b = if b = a then v else m.read b := by
  induction m with
  | nil =>
    by_cases hv : v = Memory.unlisted <;> by_cases hb : a = b <;>
      simp [Memory.write, Memory.read, hv, hb, eq_comm (a := b)]
  | cons x m ih =>
    obtain ⟨h1, h2, h3, h4⟩ := (Memory.wf_cons x m).1 hm
    have hlt : ∀ a, a ≤ x.1 → Memory.read m a = Memory.unlisted := fun a ha =>
      Memory.read_of_lt fun y hy => Nat.lt_of_le_of_lt ha (h1 y hy)
    simp only [Memory.write]
    split_ifs with c1 c2 c3 c4 c5 c6 c7 c8 c9
    · subst c3; rw [Memory.read, if_neg (by omega), hlt b (by omega), c2]
    · rfl
    · subst c4; simp [Memory.read]
    · rw [Memory.read, if_neg (by simpa [eq_comm] using c4)]
    · rw [hlt b (by omega), c6]
    · rw [Memory.read, if_neg (by omega)]
    · subst c8; simp [Memory.read]
    · rw [Memory.read, if_neg (by simpa [eq_comm] using c8), Memory.read, if_neg (by omega)]
    · subst c9; rw [Memory.read, if_neg (by omega), ih h4, if_pos rfl]
    · rw [Memory.read, Memory.read, ih h4, if_neg c9]

/-- A write of bytes inside the buffer keeps the canonical form. -/
theorem Memory.writeBytes_wf {m : Memory} (hm : m.wf = true) {a : Nat} {vs : List Byte} (ha : a + vs.length ≤ 64) :
    (m.writeBytes a vs).wf = true := by
  induction vs generalizing m a with
  | nil => exact hm
  | cons v vs ih =>
    simp only [List.length_cons] at ha
    exact ih (Memory.write_wf hm (by omega) v) (by omega)

theorem Memory.mem_ofBytesFrom {a : Nat} {vs : List Byte} {y : Host.Cell} (h : y ∈ Memory.ofBytesFrom a vs) :
    a ≤ y.1 ∧ y.1 < a + vs.length ∧ y.2 ≠ Memory.unlisted := by
  induction vs generalizing a with
  | nil => simp [Memory.ofBytesFrom] at h
  | cons v vs ih =>
    simp only [Memory.ofBytesFrom] at h
    simp only [List.length_cons]
    split_ifs at h with hv
    · obtain ⟨h1, h2, h3⟩ := ih h
      exact ⟨by omega, by omega, h3⟩
    · obtain rfl | h := List.mem_cons.1 h
      · exact ⟨le_refl _, by simp only; omega, hv⟩
      · obtain ⟨h1, h2, h3⟩ := ih h
        exact ⟨by omega, by omega, h3⟩

/-- A buffer made of bytes that fit is in canonical form. -/
theorem Memory.ofBytesFrom_wf {a : Nat} {vs : List Byte} (h : a + vs.length ≤ 64) :
    (Memory.ofBytesFrom a vs).wf = true := by
  induction vs generalizing a with
  | nil => rfl
  | cons v vs ih =>
    simp only [List.length_cons] at h
    simp only [Memory.ofBytesFrom]
    split_ifs with hv
    · exact ih (by omega)
    · exact (Memory.wf_cons _ _).2
        ⟨fun y hy => (Memory.mem_ofBytesFrom hy).1, by simp only; omega, hv, ih (by omega)⟩

/-- The bytes of a buffer made of bytes. -/
theorem Memory.read_ofBytesFrom (a : Nat) (vs : List Byte) (b : Nat) :
    (Memory.ofBytesFrom a vs).read b = if b < a then Memory.unlisted else vs.getD (b - a) Memory.unlisted := by
  induction vs generalizing a with
  | nil => simp [Memory.ofBytesFrom, Memory.read]
  | cons v vs ih =>
    obtain hb | rfl | hb := Nat.lt_trichotomy b a
    · rw [if_pos hb]
      exact Memory.read_of_lt fun y hy => Nat.lt_of_lt_of_le hb (Memory.mem_ofBytesFrom hy).1
    · rw [if_neg (Nat.lt_irrefl b), Nat.sub_self, List.getD_cons_zero, Memory.ofBytesFrom]
      split_ifs with hv
      · rw [ih, if_pos (Nat.lt_succ_self b), hv]
      · exact if_pos rfl
    · have hs : b - a = (b - (a + 1)) + 1 := by omega
      simp only [Memory.ofBytesFrom]
      split_ifs with hv h2
      · omega
      · rw [ih, if_neg (by omega), hs]; simp
      · omega
      · rw [Memory.read, if_neg (by simp only; omega), ih, if_neg (by omega), hs]; simp

/-- The write of the whole buffer is in canonical form. -/
theorem memFill_wf (v : List Byte) : (memFill v).wf = true :=
  Memory.ofBytesFrom_wf (by simp)

/-- The bytes after a write of the whole buffer. -/
theorem read_memFill {v : List Byte} (hv : v.length = 64) (a : Nat) :
    (memFill v).read a = v.getD a Memory.unlisted := by
  rw [memFill, Memory.read_ofBytesFrom, List.take_of_length_le (by simp [hv])]
  simp

/-- Buffers in canonical form with the same bytes are the same data. -/
theorem Memory.ext {m m' : Memory} (hm : m.wf = true) (hm' : m'.wf = true) (h : ∀ a, m.read a = m'.read a) : m = m' := by
  induction m generalizing m' with
  | nil =>
    cases m' with
    | nil => rfl
    | cons x m' =>
      obtain ⟨-, -, hx, -⟩ := (Memory.wf_cons x m').1 hm'
      exact absurd (by simpa [Memory.read] using (h x.1).symm) hx
  | cons x m ih =>
    obtain ⟨h1, -, hx, hw⟩ := (Memory.wf_cons x m).1 hm
    cases m' with
    | nil => exact absurd (by simpa [Memory.read] using h x.1) hx
    | cons y m' =>
      obtain ⟨h1', -, hy, hw'⟩ := (Memory.wf_cons y m').1 hm'
      have hxy : x.1 = y.1 := by
        rcases Nat.lt_trichotomy x.1 y.1 with hlt | he | hlt
        · have := h x.1
          rw [Memory.read, if_pos rfl, Memory.read, if_neg (by omega),
            Memory.read_of_lt fun z hz => hlt.trans (h1' z hz)] at this
          exact absurd this hx
        · exact he
        · have := h y.1
          rw [Memory.read, if_neg (by omega), Memory.read_of_lt fun z hz => hlt.trans (h1 z hz), Memory.read,
            if_pos rfl] at this
          exact absurd this.symm hy
      have hv : x.2 = y.2 := by simpa [Memory.read, hxy] using h x.1
      have hrest : m = m' := ih hw hw' fun a => by
        by_cases ha : x.1 = a
        · rw [Memory.read_of_lt fun z hz => ha ▸ h1 z hz, Memory.read_of_lt fun z hz => ha ▸ hxy ▸ h1' z hz]
        · have := h a
          rwa [Memory.read, if_neg ha, Memory.read, if_neg (hxy ▸ ha)] at this
      rw [hrest, Prod.ext hxy hv]

@[simp] theorem Memory.length_bytes (m : Memory) (a n : Nat) : (m.bytes a n).length = n := by simp [Memory.bytes]

/-- The bytes read from a buffer, one by one. -/
theorem Memory.getD_bytes (m : Memory) (a n i : Nat) (d : Byte) :
    (m.bytes a n).getD i d = if i < n then m.read (a + i) else d := by
  by_cases h : i < n <;> simp [Memory.bytes, h, List.getD_eq_getElem?_getD]

/-- `MemRead` inside the buffer gives the bytes; elsewhere it is the fault of its name. -/
theorem memRead_of_le (m : Memory) {a n : Nat} (h : a + n ≤ 64) : memRead m a n = .ok (m.bytes a n) := by
  simp [memRead, h]

/-- `MemWrite` inside the buffer writes the bytes; elsewhere it is the fault of its name. -/
theorem memWrite_of_le (m : Memory) {a : Nat} {v : List Byte} (h : a + v.length ≤ 64) :
    memWrite m a v = .ok (m.writeBytes a v) := by
  simp [memWrite, h]

/-- The buffer after reset is in canonical form. -/
theorem reset_buf_wf : State.reset.ctx.buf.wf = true := rfl

end Sys2Proof.Machine
end

