-- ==== Sys2Proof/Laws/State.lean ====
section
/-! SUPPORT. One lemma per field and update of the state, so that no later proof unfolds a record update, and what each
shared operation at the command port answers. -/

namespace Sys2Proof.Machine

/-! The lemmas whose right side is a field of `s` are proved by cases, not by `rfl` at once: so `simp` cites them, and the
kernel never compares the updated state with `s` (a comparison in which it would unfold word arithmetic). -/

@[simp] theorem setCtx_ctx (s : State) (c : Context) : (setCtx s c).ctx = c := rfl
@[simp] theorem setCtx_port (s : State) (c : Context) : (setCtx s c).port = s.port := by
  cases s; rfl
@[simp] theorem setCtx_responses (s : State) (c : Context) : (setCtx s c).responses = s.responses := by
  cases s; rfl

@[simp] theorem pushResponse_ctx (s : State) (r : Response) : (pushResponse s r).ctx = s.ctx := by
  cases s; rfl
@[simp] theorem pushResponse_port (s : State) (r : Response) : (pushResponse s r).port = s.port := by
  cases s; rfl
@[simp] theorem pushResponse_responses (s : State) (r : Response) :
    (pushResponse s r).responses = s.responses ++ [r] := by
  cases s; rfl

@[simp] theorem setPort_ctx (s : State) (p : List HostMove) : (setPort s p).ctx = s.ctx := by
  cases s; rfl
@[simp] theorem setPort_port (s : State) (p : List HostMove) : (setPort s p).port = p := rfl
@[simp] theorem setPort_responses (s : State) (p : List HostMove) : (setPort s p).responses = s.responses := by
  cases s; rfl

@[simp] theorem assertReset_ctx (s : State) : (assertReset s).ctx = State.reset.ctx := rfl
@[simp] theorem assertReset_port (s : State) : (assertReset s).port = s.port := by
  cases s; rfl
@[simp] theorem assertReset_responses (s : State) : (assertReset s).responses = s.responses := by
  cases s; rfl

@[simp] theorem idle_eq (s : State) : idle s = s := rfl

@[simp] theorem answered_ctx (s : State) (c : Context) (st : Byte) (p : List Byte) : (answered s c st p).ctx = c := rfl
@[simp] theorem answered_port (s : State) (c : Context) (st : Byte) (p : List Byte) :
    (answered s c st p).port = s.port := by
  cases s; rfl
@[simp] theorem answered_responses (s : State) (c : Context) (st : Byte) (p : List Byte) :
    (answered s c st p).responses = s.responses ++ [⟨st, p⟩] := by
  cases s; rfl

/-- `respond(OK, payload)` answers the next state with the response given and nothing else changed. -/
theorem respondOk_eq (p : List Byte) (s : State) : respondOk p s = .next (answered s s.ctx 0x00 p) := rfl

/-- Ending a command with a new context. -/
theorem respondOk_setCtx (p : List Byte) (s : State) (c : Context) :
    respondOk p (setCtx s c) = .next (answered s c 0x00 p) := rfl

/-- `raise` changes nothing but the responses (spec/60_exceptions.md R193). -/
theorem raise_eq (st : Status) (s : State) : raise st s = .next (answered s s.ctx (statusCode st) []) := rfl

/-- What `finishWith` can answer. -/
theorem finishWith_ok (c : Context) (s : State) : finishWith (.ok c) s = .next (answered s c 0x00 []) := rfl

/-- What `answerWith` can answer. -/
theorem answerWith_ok (p : List Byte) (s : State) : answerWith (.ok p) s = .next (answered s s.ctx 0x00 p) := rfl

/-- The well-formedness test says what `Context.WellFormed` says. -/
theorem wellFormedCtx_iff (c : Context) : wellFormedCtx c = true ↔ c.WellFormed := by
  simp [wellFormedCtx, Context.WellFormed]

/-- The tag test says that the tag is the six bytes. -/
theorem tagMatches_iff (tag : List Byte) : tagMatches tag = true ↔ tag = Config.tag := by simp [tagMatches]

/-- The length test says that the length is 112 or 120. -/
theorem imageLengthAccepted_iff (n : Nat) : imageLengthAccepted n = true ↔ n = 112 ∨ n = 120 := by
  simp [imageLengthAccepted, Config.imageBytes, Config.legacyExtra]

/-- On a well-formed context the guarded command runs. -/
theorem guardWellFormed_of_wf {s : State} (h : s.ctx.WellFormed) (run : Host.Outcome State Fault Refusal) :
    guardWellFormed s run = run := by
  simp [guardWellFormed, (wellFormedCtx_iff _).2 h]

/-- On an ill-formed context the guarded command ends in `ContextFault`. -/
theorem guardWellFormed_of_not_wf {s : State} (h : ¬ s.ctx.WellFormed) (run : Host.Outcome State Fault Refusal) :
    guardWellFormed s run = .next (answered s s.ctx 0x04 []) := by
  have h' : ¬ wellFormedCtx s.ctx = true := fun hw => h ((wellFormedCtx_iff _).1 hw)
  simp [guardWellFormed, h', raise_eq, statusCode]

end Sys2Proof.Machine
end

