-- ==== Sys2Proof/Laws/Context.lean ====
section
/-! SUPPORT. What the shared operations of the context commands do, said once: the byte step of ABSORB and its iteration,
the counter step, finalization, and the buffer reads they make. -/

namespace Sys2Proof.Machine

/-- The byte step of ABSORB as a total function, for a context with `NUM < 64`: it agrees with `absorbByte`
(`absorbByte_eq`). -/
def absorbStep (c : Context) (b : Byte) : Context :=
  if c.num.toNat = 63 then
    { c with h := compress c.h ((c.buf.write 63 b).bytes 0 64), buf := c.buf.write 63 b, num := 0 }
  else { c with buf := c.buf.write c.num.toNat b, num := c.num + 1 }

/-- With `NUM < 64` the byte step makes no access outside the buffer. -/
theorem absorbByte_eq {c : Context} (hn : c.num.toNat < 64) (b : Byte) : absorbByte c b = .ok (absorbStep c b) := by
  have hw : memWrite c.buf c.num.toNat [b] = .ok (c.buf.write c.num.toNat b) :=
    memWrite_of_le _ (by simp; omega)
  rw [absorbByte, hw]
  by_cases h63 : c.num.toNat = 63
  · have hnum : c.num = 63 := by apply BitVec.eq_of_toNat_eq; rw [h63]; rfl
    simp [compressIfFull, bufferFull, absorbStep, hnum, memRead_of_le]
  · have hne : ¬ (c.num + 1 = 64) := fun h => h63 (by
      have := congrArg BitVec.toNat h
      simp [BitVec.toNat_add] at this
      omega)
    simp only [compressIfFull, bufferFull, absorbStep, h63, beq_iff_eq, hne, if_false]

@[simp] theorem absorbStep_lenLo (c : Context) (b : Byte) : (absorbStep c b).lenLo = c.lenLo := by
  unfold absorbStep; split <;> rfl
@[simp] theorem absorbStep_lenHi (c : Context) (b : Byte) : (absorbStep c b).lenHi = c.lenHi := by
  unfold absorbStep; split <;> rfl
@[simp] theorem absorbStep_mdlen (c : Context) (b : Byte) : (absorbStep c b).mdlen = c.mdlen := by
  unfold absorbStep; split <;> rfl

/-- `NUM` after the byte step: one more, or 0 after the 64th byte. -/
theorem absorbStep_num {c : Context} (hn : c.num.toNat < 64) (b : Byte) :
    (absorbStep c b).num.toNat = (c.num.toNat + 1) % 64 := by
  unfold absorbStep
  split_ifs with h
  · simp [h]
  · simp only [BitVec.toNat_add]
    have : (1 : Word).toNat = 1 := rfl
    omega

/-- `NUM` stays below 64 from one byte step to the next. -/
theorem absorbStep_num_lt {c : Context} (hn : c.num.toNat < 64) (b : Byte) : (absorbStep c b).num.toNat < 64 := by
  rw [absorbStep_num hn]; omega

/-- The buffer after the byte step: the byte written at `NUM`. -/
theorem absorbStep_buf (c : Context) (b : Byte) : (absorbStep c b).buf = c.buf.write c.num.toNat b := by
  unfold absorbStep
  split_ifs with h
  · rw [h]
  · rfl

/-- `H` after the byte step: unchanged, or the compression of the full buffer. -/
theorem absorbStep_h (c : Context) (b : Byte) :
    (absorbStep c b).h =
      if c.num.toNat = 63 then compress c.h ((c.buf.write 63 b).bytes 0 64) else c.h := by
  unfold absorbStep
  split_ifs <;> rfl

/-- ABSORB's byte steps are the iteration of the byte step, and never fault on a context with `NUM < 64`. -/
theorem absorbBytes_eq {c : Context} (hn : c.num.toNat < 64) (data : List Byte) :
    absorbBytes c data = .ok (data.foldl absorbStep c) := by
  induction data generalizing c with
  | nil => rfl
  | cons b bs ih => rw [absorbBytes, absorbByte_eq hn, List.foldl_cons, ← ih (absorbStep_num_lt hn b)]

/-- What the byte steps leave alone. -/
theorem foldl_absorbStep_fields (data : List Byte) (c : Context) :
    (data.foldl absorbStep c).lenLo = c.lenLo ∧ (data.foldl absorbStep c).lenHi = c.lenHi ∧
      (data.foldl absorbStep c).mdlen = c.mdlen := by
  induction data generalizing c with
  | nil => exact ⟨rfl, rfl, rfl⟩
  | cons b bs ih => simpa using ih (absorbStep c b)

/-- `NUM` after the byte steps. -/
theorem foldl_absorbStep_num (data : List Byte) {c : Context} (hn : c.num.toNat < 64) :
    (data.foldl absorbStep c).num.toNat = (c.num.toNat + data.length) % 64 := by
  induction data generalizing c with
  | nil => simp [Nat.mod_eq_of_lt hn]
  | cons b bs ih =>
    rw [List.foldl_cons, ih (absorbStep_num_lt hn b), absorbStep_num hn, List.length_cons]
    omega

/-- The byte steps keep the canonical form of the buffer. -/
theorem foldl_absorbStep_wf (data : List Byte) {c : Context} (hn : c.num.toNat < 64) (hw : c.buf.wf = true) :
    (data.foldl absorbStep c).buf.wf = true := by
  induction data generalizing c with
  | nil => exact hw
  | cons b bs ih =>
    exact ih (absorbStep_num_lt hn b) (absorbStep_buf c b ▸ Memory.write_wf hw hn b)

/-- The context with another counter value: the counter step of ABSORB. -/
def withLen (c : Context) (len : Nat) : Context := { c with lenLo := lenLoOf len, lenHi := lenHiOf len }

@[simp] theorem withLen_h (c : Context) (len : Nat) : (withLen c len).h = c.h := by unfold withLen; rfl
@[simp] theorem withLen_buf (c : Context) (len : Nat) : (withLen c len).buf = c.buf := by unfold withLen; rfl
@[simp] theorem withLen_num (c : Context) (len : Nat) : (withLen c len).num = c.num := by unfold withLen; rfl
@[simp] theorem withLen_mdlen (c : Context) (len : Nat) : (withLen c len).mdlen = c.mdlen := by unfold withLen; rfl
@[simp] theorem withLen_lenLo (c : Context) (len : Nat) : (withLen c len).lenLo = lenLoOf len := rfl
@[simp] theorem withLen_lenHi (c : Context) (len : Nat) : (withLen c len).lenHi = lenHiOf len := rfl

/-- ABSORB on a well-formed context. -/
theorem execAbsorb_eq {s : State} (h : s.ctx.WellFormed) (data : List Byte) :
    execAbsorb data s = .next
      (answered s (data.foldl absorbStep (withLen s.ctx (lenAfter s.ctx data.length))) 0x00 []) := by
  rw [execAbsorb, guardWellFormed_of_wf h]
  have hn : (withLen s.ctx (lenAfter s.ctx data.length)).num.toNat < 64 := by rw [withLen_num]; exact h.1
  have he := absorbBytes_eq hn data
  unfold withLen at he ⊢
  rw [he, finishWith_ok]

/-- The counter a pair of halves holds. -/
theorem lenValue_withLen (c : Context) {len : Nat} (h : len < 2 ^ 64) : lenValue (withLen c len) = len := by
  simp only [lenValue, withLen, lenLoOf, lenHiOf, BitVec.toNat_ofNat]
  omega

/-- Finalization on a context with `NUM < 64`: it never faults. -/
theorem finalize_eq {c : Context} (hn : c.num.toNat < 64) :
    finalize c = .ok (digestOf
      ((paddingBlocks c.num.toNat (c.buf.bytes 0 c.num.toNat) (lengthField c)).foldl compress c.h)) := by
  rw [finalize, memRead_of_le _ (by omega)]

/-- The context CREATE makes is the context after reset (spec/70_reset_and_hazards.md R220). -/
theorem createdCtx_eq_reset : createdCtx = State.reset.ctx := by decide

end Sys2Proof.Machine
end

