-- ==== Sys2Proof/Laws/Decode.lean ====
section
/-! SUPPORT. The fields of a command word, the decoder and the encoder's packing in arithmetic. -/

namespace Sys2Proof

theorem toNat_opField (cw : Word) : (opField cw).toNat = cw.toNat % 2 ^ 8 := by
  simp [opField, BitVec.extractLsb'_toNat]

theorem toNat_argField (cw : Word) : (argField cw).toNat = cw.toNat / 2 ^ 8 := by
  have := cw.isLt
  simp [argField, BitVec.extractLsb'_toNat, Nat.shiftRight_eq_div_pow]
  omega

theorem toNat_tagLenField (cw : Word) : (tagLenField cw).toNat = cw.toNat / 2 ^ 8 % 2 ^ 8 := by
  simp [tagLenField, BitVec.extractLsb'_toNat, Nat.shiftRight_eq_div_pow]

theorem toNat_bLenField (cw : Word) : (bLenField cw).toNat = cw.toNat / 2 ^ 16 := by
  have := cw.isLt
  simp [bLenField, BitVec.extractLsb'_toNat, Nat.shiftRight_eq_div_pow]
  omega

theorem toNat_packWord (a : BitVec 24) (o : BitVec 8) : (packWord a o).toNat = a.toNat * 2 ^ 8 + o.toNat := by
  simp only [packWord, BitVec.toNat_append]
  rw [← Nat.shiftLeft_add_eq_or_of_lt o.isLt, Nat.shiftLeft_eq]

/-- The word decoder by the number of the word. -/
theorem decodeWord_nat (cw : Word) : decodeWord cw =
    if cw.toNat % 2 ^ 8 = 2 then some (.absorb (cw.toNat / 2 ^ 8))
    else if cw.toNat % 2 ^ 8 = 6 then some (.restore (cw.toNat / 2 ^ 8 % 2 ^ 8) (cw.toNat / 2 ^ 16))
    else if cw.toNat = 1 then some .create else if cw.toNat = 3 then some .digest
    else if cw.toNat = 4 then some .hexdigest else if cw.toNat = 5 then some .snapshot else none := by
  have e (k : BitVec 8) : opField cw = k ↔ cw.toNat % 2 ^ 8 = k.toNat := by
    rw [← toNat_opField]; exact ⟨fun h => h ▸ rfl, BitVec.eq_of_toNat_eq⟩
  have ea : argField cw = 0 ↔ cw.toNat / 2 ^ 8 = 0 := by
    rw [← toNat_argField]; exact ⟨fun h => h ▸ rfl, fun h => BitVec.eq_of_toNat_eq h⟩
  simp only [decodeWord, e, ea, toNat_argField, toNat_tagLenField, toNat_bLenField]
  simp only [BitVec.reduceToNat, BitVec.ofNat_eq_ofNat]
  split_ifs <;> first | rfl | omega

/-- A frame that decodes has a legal word and the declared length of payload. -/
theorem decode_ok {f : Frame} {i : Instr} (h : decode f = .ok i) :
    ∃ hd, decodeWord f.cw = some hd ∧ f.payload.length = declaredLength hd ∧ i = assembleInstr hd f.payload := by
  unfold decode at h
  split at h
  · simp at h
  · rename_i hd e
    split_ifs at h with hl
    · exact ⟨hd, e, hl, by simpa using h.symm⟩

end Sys2Proof
end

