-- ==== Sys2Proof/Laws/Exec.lean ====
section
/-! SUPPORT. What any command can do, said once for both values of `SNAP_BYTE_ORDER`; DIGEST, HEXDIGEST and RESTORE where
they complete; the commands, the step and the machine at the value of this hardware are `exec`, `step` and `core`. -/

namespace Sys2Proof.Machine

/-- The 32 bytes of the digest of a context, as finalization computes them where `NUM < 64`. -/
def digestBytes (c : Context) : List Byte :=
  digestOf ((paddingBlocks c.num.toNat (c.buf.bytes 0 c.num.toNat) (lengthField c)).foldl compress c.h)

/-- DIGEST on a well-formed context. -/
theorem execDigest_eq {s : State} (h : s.ctx.WellFormed) :
    execDigest s = .next (answered s s.ctx 0x00 (digestBytes s.ctx)) := by
  rw [execDigest, guardWellFormed_of_wf h, finalize_eq h.1, answerWith_ok]
  rfl

/-- HEXDIGEST on a well-formed context. -/
theorem execHexdigest_eq {s : State} (h : s.ctx.WellFormed) :
    execHexdigest s = .next (answered s s.ctx 0x00 (hexEncode (digestBytes s.ctx))) := by
  rw [execHexdigest, guardWellFormed_of_wf h, finalize_eq h.1]
  rfl

/-- RESTORE of a pair that passes both checks. -/
theorem execRestoreIn_accepted (o : ByteOrder) (image : List Byte) (s : State)
    (h : image.length = 112 ∨ image.length = 120) :
    execRestoreIn o Config.tag image s = .next (answered s (deserialize o image) 0x00 []) := by
  rw [execRestoreIn, if_pos ((tagMatches_iff _).2 rfl), if_pos ((imageLengthAccepted_iff _).2 h), respondOk_setCtx]

/-- RESTORE with the right tag of an image of another length. -/
theorem execRestoreIn_malformed (o : ByteOrder) (image : List Byte) (s : State)
    (h : ¬ (image.length = 112 ∨ image.length = 120)) :
    execRestoreIn o Config.tag image s = .next (answered s s.ctx 0x02 []) := by
  rw [execRestoreIn, if_pos ((tagMatches_iff _).2 rfl), if_neg (fun h' => h ((imageLengthAccepted_iff _).1 h')), raise_eq]
  rfl

/-- RESTORE with another tag. -/
theorem execRestoreIn_unsupported (o : ByteOrder) {tag : List Byte} (h : tag ≠ Config.tag) (image : List Byte) (s : State) :
    execRestoreIn o tag image s = .next (answered s s.ctx 0x01 []) := by
  rw [execRestoreIn, if_neg (fun h' => h ((tagMatches_iff _).1 h')), raise_eq]
  rfl

/-- RESTORE of this hardware, test by test. -/
theorem execRestore_eq (tag image : List Byte) (s : State) : execRestore tag image s =
    if tagMatches tag then
      if imageLengthAccepted image.length then respondOk [] (setCtx s (deserialize imageOrder image))
      else raise .malformedState s
    else raise .unsupportedAlgorithm s := rfl

/-- RESTORE of a pair that passes both checks, on this hardware. -/
theorem execRestore_accepted (image : List Byte) (s : State) (h : image.length = 112 ∨ image.length = 120) :
    execRestore Config.tag image s = .next (answered s (deserialize imageOrder image) 0x00 []) :=
  execRestoreIn_accepted imageOrder image s h

/-- What RESTORE can do, whatever the byte order. -/
theorem execRestoreIn_answers (o : ByteOrder) (tag image : List Byte) (s : State) :
    ∃ (c : Context) (st : Byte), execRestoreIn o tag image s = .next (answered s c st []) ∧ st.toNat ≤ 4 ∧
      (st ≠ 0 → c = s.ctx) ∧ (s.ctx.buf.wf = true → c.buf.wf = true) := by
  by_cases ht : tag = Config.tag
  · subst ht
    by_cases hl : image.length = 112 ∨ image.length = 120
    · exact ⟨_, 0, execRestoreIn_accepted o image s hl, by decide, by simp, fun _ => memFill_wf _⟩
    · exact ⟨s.ctx, 2, execRestoreIn_malformed o image s hl, by decide, by simp, id⟩
  · exact ⟨s.ctx, 1, execRestoreIn_unsupported o ht image s, by decide, by simp, id⟩

/-- Whatever the byte order, the command and the state, the command gives one response with a status the spec has; an error
leaves the context and gives no payload; the buffer keeps its canonical form. -/
theorem execIn_answers (o : ByteOrder) (i : Instr) (s : State) : ∃ (c : Context) (st : Byte) (p : List Byte),
    execIn o i s = .next (answered s c st p) ∧ st.toNat ≤ 4 ∧ (st ≠ 0 → c = s.ctx ∧ p = []) ∧
    (s.ctx.buf.wf = true → c.buf.wf = true) := by
  cases i with
  | create => exact ⟨createdCtx, 0, [], rfl, by decide, by simp, fun _ => by decide⟩
  | snapshot => exact ⟨s.ctx, 0, _, rfl, by decide, by simp, id⟩
  | restore t im =>
    obtain ⟨c, st, h, h1, h2, h3⟩ := execRestoreIn_answers o t im s
    exact ⟨c, st, [], h, h1, fun h => ⟨h2 h, rfl⟩, h3⟩
  | absorb d =>
    by_cases hw : s.ctx.WellFormed
    · refine ⟨_, 0, [], execAbsorb_eq hw d, by decide, by simp, fun hb => ?_⟩
      exact foldl_absorbStep_wf d (by simpa using hw.1) (by simpa using hb)
    · exact ⟨s.ctx, 4, [], guardWellFormed_of_not_wf hw _, by decide, by simp, id⟩
  | digest =>
    by_cases hw : s.ctx.WellFormed
    · exact ⟨s.ctx, 0, _, execDigest_eq hw, by decide, by simp, id⟩
    · exact ⟨s.ctx, 4, [], guardWellFormed_of_not_wf hw _, by decide, by simp, id⟩
  | hexdigest =>
    by_cases hw : s.ctx.WellFormed
    · exact ⟨s.ctx, 0, _, execHexdigest_eq hw, by decide, by simp, id⟩
    · exact ⟨s.ctx, 4, [], guardWellFormed_of_not_wf hw _, by decide, by simp, id⟩

/-- At the byte order of this hardware the commands are those of `exec`. -/
theorem execIn_imageOrder (i : Instr) (s : State) : execIn imageOrder i s = exec i s := by cases i <;> rfl

/-- What any command of this hardware can do. -/
theorem exec_answers (i : Instr) (s : State) : ∃ (c : Context) (st : Byte) (p : List Byte),
    exec i s = .next (answered s c st p) ∧ st.toNat ≤ 4 ∧ (st ≠ 0 → c = s.ctx ∧ p = []) ∧
    (s.ctx.buf.wf = true → c.buf.wf = true) :=
  execIn_imageOrder i s ▸ execIn_answers imageOrder i s

/-- At the byte order of this hardware the step is `step`. -/
theorem stepIn_imageOrder : stepIn imageOrder = step := by
  funext s
  have h : execIn imageOrder = exec := funext fun i => funext (execIn_imageOrder i)
  rw [stepIn, step, h]

end Sys2Proof.Machine
end

