-- ==== Sys2Proof/Laws/Facade.lean ====
section
/-! SUPPORT. A sequence of commands, command by command. -/

namespace Sys2Proof.Machine

@[simp] theorem runCommandsWith_nil (run : Instr → State → Host.Outcome State Fault Refusal) (s : State) :
    runCommandsWith run [] s = .next s := rfl

/-- A sequence whose first command completes goes on with the rest. -/
theorem runCommandsWith_cons {run : Instr → State → Host.Outcome State Fault Refusal} {i : Instr} {s t : State}
    (h : run i s = .next t) (is : List Instr) : runCommandsWith run (i :: is) s = runCommandsWith run is t := by
  rw [runCommandsWith, h]

@[simp] theorem runCommands_nil (s : State) : runCommands [] s = .next s := rfl

/-- The same on this hardware. -/
theorem runCommands_cons {i : Instr} {s t : State} (h : exec i s = .next t) (is : List Instr) :
    runCommands (i :: is) s = runCommands is t :=
  runCommandsWith_cons h is

end Sys2Proof.Machine
end

