-- ==== Sys2Proof/Laws/PerInstr.lean ====
section
/-! SUPPORT. The statements made command by command. `OpcodeRow`: the command word the encoder makes is one of the words
the command's row of the opcode map selects (spec/30_encoding.md R75). -/

namespace Sys2Proof

/-- The low 8 bits of a packed word are the opcode, whatever the argument is. -/
theorem packWord_and_opcode_mask (arg : BitVec 24) (op : BitVec 8) :
    packWord arg op &&& 0x000000FF = BitVec.setWidth 32 op := by
  apply BitVec.eq_of_toNat_eq
  have ho := op.isLt
  simp only [packWord, BitVec.toNat_and, BitVec.toNat_append, BitVec.toNat_setWidth]
  rw [← Nat.shiftLeft_add_eq_or_of_lt ho, Nat.shiftLeft_eq]
  have hmask : (0x000000FF : Word).toNat = 2 ^ 8 - 1 := rfl
  rw [hmask, Nat.and_two_pow_sub_one_eq_mod]
  omega

/-- The encoder's word is in the row of the command. -/
def Laws.OpcodeRow.Statement (i : Instr) : Prop := (encode i).cw &&& rowMask i = rowMatch i

theorem Laws.OpcodeRow.create : Laws.OpcodeRow.Statement .create := by
  unfold Laws.OpcodeRow.Statement; decide

theorem Laws.OpcodeRow.absorb (data : List Byte) : Laws.OpcodeRow.Statement (.absorb data) :=
  packWord_and_opcode_mask _ _

theorem Laws.OpcodeRow.digest : Laws.OpcodeRow.Statement .digest := by
  unfold Laws.OpcodeRow.Statement; decide

theorem Laws.OpcodeRow.hexdigest : Laws.OpcodeRow.Statement .hexdigest := by
  unfold Laws.OpcodeRow.Statement; decide

theorem Laws.OpcodeRow.snapshot : Laws.OpcodeRow.Statement .snapshot := by
  unfold Laws.OpcodeRow.Statement; decide

theorem Laws.OpcodeRow.restore (tag image : List Byte) : Laws.OpcodeRow.Statement (.restore tag image) :=
  packWord_and_opcode_mask _ _

end Sys2Proof
end

