-- ==== Sys2Proof/Laws/Step.lean ====
section
/-! SUPPORT. What a step can do, said once for every meaning of the commands. -/

namespace Sys2Proof.Machine

/-- A step that answers a next state: nothing to do, a reset, a decoded command, or an illegal word. -/
theorem stepWith_cases {run : Instr → State → Host.Outcome State Fault Refusal} {s t : State}
    (h : stepWith run s = .next t) :
    (s.port = [] ∧ t = s) ∨
    (∃ p rest, s.port = .reset p :: rest ∧ t = { ctx := State.reset.ctx, port := rest, responses := s.responses }) ∨
    (∃ f rest i, s.port = .frame f :: rest ∧ decode f = .ok i ∧ run i { s with port := rest } = .next t) ∨
    ∃ f rest cw, s.port = .frame f :: rest ∧ decode f = .error (.illegalCommand cw) ∧
      t = answered { s with port := rest } s.ctx 0x03 [] := by
  unfold stepWith at h
  split at h
  · rename_i hp
    exact .inl ⟨hp, by cases h; rfl⟩
  · rename_i f rest hp
    unfold runFrameWith at h
    split at h
    · rename_i i hd
      exact .inr (.inr (.inl ⟨f, rest, i, hp, hd, h⟩))
    · rename_i e hd
      cases e with
      | illegalCommand cw => exact .inr (.inr (.inr ⟨f, rest, cw, hp, hd, by cases h; rfl⟩))
      | payloadLength => simp [answerUndecoded] at h
  · rename_i p rest hp
    exact .inr (.inl ⟨p, rest, hp, by cases h; rfl⟩)

/-- A step of this hardware that answers a next state. -/
theorem step_cases {s t : State} (h : step s = .next t) :
    (s.port = [] ∧ t = s) ∨
    (∃ p rest, s.port = .reset p :: rest ∧ t = { ctx := State.reset.ctx, port := rest, responses := s.responses }) ∨
    (∃ f rest i, s.port = .frame f :: rest ∧ decode f = .ok i ∧ exec i { s with port := rest } = .next t) ∨
    ∃ f rest cw, s.port = .frame f :: rest ∧ decode f = .error (.illegalCommand cw) ∧
      t = answered { s with port := rest } s.ctx 0x03 [] :=
  stepWith_cases h

/-- The step of this hardware, move by move. -/
theorem step_eq (s : State) : step s =
    match s.port with
    | [] => .next (idle s)
    | .frame f :: rest => runFrameWith exec f (setPort s rest)
    | .reset _ :: rest => .next (assertReset (setPort s rest)) := rfl

/-- A step with the frame of a command at the port runs the command. -/
theorem stepWith_frame {run : Instr → State → Host.Outcome State Fault Refusal} {s : State} {f : Frame}
    {rest : List HostMove} {i : Instr} (hp : s.port = .frame f :: rest) (hd : decode f = .ok i) :
    stepWith run s = run i (setPort s rest) := by
  simp only [stepWith, hp, runFrameWith, hd]

end Sys2Proof.Machine
end

