-- ==== Sys2Proof/Tests/Slice0.lean ====
section
/-! SUPPORT. Small tests of the model, each against a value the spec prints, and a witness for the premises of every
statement in Certificates/Slice0/Obligations.lean that has premises. -/

namespace Sys2Proof.Tests

open Sys2Proof.Machine

/-! ### Helpers -/

/-- `pattern(n)` of spec/30_encoding.md R82. -/
def pattern (n : Nat) : List Byte := (List.range n).map fun i => BitVec.ofNat 8 i

/-- The bytes of "sha256". -/
def sha256Tag : List Byte := [0x73, 0x68, 0x61, 0x32, 0x35, 0x36]

/-- The bytes of "hello". -/
def hello : List Byte := [0x68, 0x65, 0x6c, 0x6c, 0x6f]

/-- A state with `H = H_INIT` and `MDLEN = 32`, the given counter, buffer bytes and `NUM`, and an idle port. -/
def stateWith (len : Nat) (buf : List Byte) (num : Nat) : State where
  ctx :=
    { h := hInit
      lenLo := BitVec.ofNat 32 len
      lenHi := BitVec.ofNat 32 (len / 2 ^ 32)
      buf := memFill buf
      num := BitVec.ofNat 32 num
      mdlen := 32 }
  port := []
  responses := []

/-- The state of spec/95_test_vectors.md T-I2: "hello" absorbed. -/
def helloState : State := stateWith 40 hello 5

/-- The state of T-P5 after its first command: every field zero, so ill-formed. -/
def zeroState : State where
  ctx := { h := ⟨0, 0, 0, 0, 0, 0, 0, 0⟩, lenLo := 0, lenHi := 0, buf := [], num := 0, mdlen := 0 }
  port := []
  responses := []

/-- The state whose port holds one move. -/
def withMove (s : State) (m : HostMove) : State := setPort s [m]

/-- The response a step or a command gave last. -/
def lastResponse : Host.Outcome State Fault Refusal → Option Response
  | .next t => t.responses.getLast?
  | .fault _ => none
  | .refused _ => none

/-- The context a step or a command left. -/
def contextAfter : Host.Outcome State Fault Refusal → Option Context
  | .next t => some t.ctx
  | .fault _ => none
  | .refused _ => none

/-! ### Well-formedness: an ill-formed command for each check -/

theorem test_wellFormed_refuses_long_absorb (n : Nat) (h : n = 2 ^ 24) :
    (Instr.absorb (List.replicate n 0)).wellFormed = false := by
  simp only [Instr.wellFormed, List.length_replicate]
  simp [h]

theorem test_wellFormed_refuses_long_tag (n : Nat) (h : n = 2 ^ 8) :
    (Instr.restore (List.replicate n 0) []).wellFormed = false := by
  simp only [Instr.wellFormed, List.length_replicate]
  simp [h]

theorem test_wellFormed_refuses_long_image (n : Nat) (h : n = 2 ^ 16) :
    (Instr.restore [] (List.replicate n 0)).wellFormed = false := by
  simp only [Instr.wellFormed, List.length_replicate]
  simp [h]

/-! ### Decoding: words written out bit by bit from R72 and R75 (format Z, A and R) -/

theorem test_decode_create : decode ⟨0b000000000000000000000000_00000001, []⟩ = .ok .create := by decide

theorem test_decode_absorb :
    decode ⟨0b000000000000000000000101_00000010, hello⟩ = .ok (.absorb hello) := by decide

theorem test_decode_digest : decode ⟨0b000000000000000000000000_00000011, []⟩ = .ok .digest := by decide

theorem test_decode_hexdigest : decode ⟨0b000000000000000000000000_00000100, []⟩ = .ok .hexdigest := by decide

theorem test_decode_snapshot : decode ⟨0b000000000000000000000000_00000101, []⟩ = .ok .snapshot := by decide

theorem test_decode_restore :
    decode ⟨0b0000000000000010_00000110_00000110, sha256Tag ++ [0xaa, 0xbb]⟩ = .ok (.restore sha256Tag [0xaa, 0xbb]) := by
  decide

/-- The encodings of R84 for ABSORB "hello" and RESTORE "sha256" with 112 bytes. -/
theorem test_encode_words :
    (encode (.absorb hello)).cw = 0x00000502 ∧ (encode (.restore sha256Tag (zeros 112))).cw = 0x00700606 := by decide

/-- T-E1: the illegal words. -/
theorem test_decodeWord_illegal :
    decodeWord 0x00000101 = none ∧ decodeWord 0x80000005 = none ∧ decodeWord 0x00000000 = none ∧
      decodeWord 0x00000007 = none ∧ decodeWord 0x000000FF = none := by decide

/-- The decoder's answer for the `match` word of each row of the opcode table. -/
theorem test_decodeTableWord_rows :
    decodeTableWord 32 1 = some .create ∧ decodeTableWord 32 2 = some (.absorb []) ∧
      decodeTableWord 32 3 = some .digest ∧ decodeTableWord 32 4 = some .hexdigest ∧
      decodeTableWord 32 5 = some .snapshot ∧ decodeTableWord 32 6 = some (.restore [] []) ∧
      decodeTableWord 32 0x302 = some (.absorb [0, 0, 0]) ∧ decodeTableWord 32 7 = none := by decide

/-- The first step after reset runs the command placed at the port: RESTORE with an empty tag answers 1 (T-R13). -/
theorem test_withFetchWord_runs :
    lastResponse (step (State.reset.withFetchWord 32 6)) = some ⟨0x01, []⟩ ∧
      lastResponse (step (State.reset.withFetchWord 32 1)) = some ⟨0x00, []⟩ := by decide

/-! ### The Compression Core -/

/-- T-C1, the row of 0x510e527f, and the worked values of `Ch` and `Maj` (R105). -/
theorem test_functions :
    bsig0 0x510e527f = 0x7ef0e1a9 ∧ bsig1 0x510e527f = 0x3587272b ∧ ssig0 0x510e527f = 0x601c02a8 ∧
      ssig1 0x510e527f = 0xe3640132 ∧ ch 0x510e527f 0x9b05688c 0x1f83d9ab = 0x1f85c98c ∧
      maj 0x6a09e667 0xbb67ae85 0x3c6ef372 = 0x3a6fe667 := by decide

/-- T-C2: round 0 of the block of "abc". -/
theorem test_round_zero :
    round (loadVars hInit) 0x428a2f98 0x61626380 =
      ⟨0x5d6aebcd, 0x6a09e667, 0xbb67ae85, 0x3c6ef372, 0xfa2a4622, 0x510e527f, 0x9b05688c, 0x1f83d9ab⟩ := by decide

/-- T-C2: the schedule words 16 to 19 and 60 to 63 of the block of "abc". -/
theorem test_schedule_abc :
    let w := schedule ([0x61, 0x62, 0x63, 0x80] ++ zeros 59 ++ [0x18])
    slice (w.flatMap be32) 64 16 =
        [0x61, 0x62, 0x63, 0x80, 0x00, 0x0f, 0x00, 0x00, 0x7d, 0xa8, 0x64, 0x05, 0x60, 0x00, 0x03, 0xc6] ∧
      w.drop 60 = [0xa43fcf15, 0x668b2ff8, 0xeeaba2cc, 0x12b1edeb] := by decide +kernel

/-- T-C4: the block `pattern(64)`. -/
theorem test_compress_pattern :
    compress hInit (pattern 64) =
      ⟨0xfc99a2df, 0x88f42a7a, 0x7bb9d180, 0x33cdc6a2, 0x0256755f, 0x9d5b9a50, 0x44a9cc31, 0x5abe84a7⟩ := by
  decide +kernel

/-! ### The commands -/

/-- T-P5: CREATE on an ill-formed context gives the context after reset. -/
theorem test_create_on_ill_formed : contextAfter (exec .create zeroState) = some State.reset.ctx := by decide

/-- T-I2: ABSORB "hello" on a fresh context. -/
theorem test_absorb_hello : contextAfter (exec (.absorb hello) State.reset) = some helloState.ctx := by decide +kernel

/-- T-I3: the 64th byte compresses the block, and the buffer keeps its bytes. -/
theorem test_absorb_fills_block :
    contextAfter (exec (.absorb [0x3f]) (stateWith 0x1f8 (pattern 63) 63)) = some
      { h := ⟨0xfc99a2df, 0x88f42a7a, 0x7bb9d180, 0x33cdc6a2, 0x0256755f, 0x9d5b9a50, 0x44a9cc31, 0x5abe84a7⟩
        lenLo := 0x200, lenHi := 0, buf := memFill (pattern 64), num := 0, mdlen := 32 } := by decide +kernel

/-- T-A2: the carry between the halves of `LEN`, and the silent wrap. -/
theorem test_absorb_counter_carry :
    (contextAfter (exec (.absorb [0x61]) (stateWith 0xfffffff8 [] 0))).map (fun c => (c.lenHi, c.lenLo, c.num)) =
        some (1, 0, 1) ∧
      (contextAfter (exec (.absorb [0x61]) (stateWith 0xfffffffffffffff8 [] 0))).map
        (fun c => (c.lenHi, c.lenLo, c.num)) = some (0, 0, 1) := by decide +kernel

/-- T-D2: the digest of "hello". -/
theorem test_digest_hello :
    lastResponse (exec .digest helloState) = some ⟨0x00,
      [0x2c, 0xf2, 0x4d, 0xba, 0x5f, 0xb0, 0xa3, 0x0e, 0x26, 0xe8, 0x3b, 0x2a, 0xc5, 0xb9, 0xe2, 0x9e,
       0x1b, 0x16, 0x1e, 0x5c, 0x1f, 0xa7, 0x42, 0x5e, 0x73, 0x04, 0x33, 0x62, 0x93, 0x8b, 0x98, 0x24]⟩ := by
  decide +kernel

/-- T-D5, `n = 56`: two padding blocks. -/
theorem test_digest_two_padding_blocks :
    lastResponse (exec .digest (stateWith 0x1c0 (pattern 56) 56)) = some ⟨0x00,
      [0xda, 0x2a, 0xe4, 0xd6, 0xb3, 0x67, 0x48, 0xf2, 0xa3, 0x18, 0xf2, 0x3e, 0x7a, 0xb1, 0xdf, 0xdf,
       0x45, 0xac, 0xdc, 0x9d, 0x04, 0x9b, 0xd8, 0x0e, 0x59, 0xde, 0x82, 0xa6, 0x08, 0x95, 0xf5, 0x62]⟩ := by
  decide +kernel

/-- T-D10: the hexadecimal digest of "hello". -/
theorem test_hexdigest_hello :
    lastResponse (exec .hexdigest helloState) = some ⟨0x00,
      [0x32, 0x63, 0x66, 0x32, 0x34, 0x64, 0x62, 0x61, 0x35, 0x66, 0x62, 0x30, 0x61, 0x33, 0x30, 0x65] ++
      [0x32, 0x36, 0x65, 0x38, 0x33, 0x62, 0x32, 0x61, 0x63, 0x35, 0x62, 0x39, 0x65, 0x32, 0x39, 0x65] ++
      [0x31, 0x62, 0x31, 0x36, 0x31, 0x65, 0x35, 0x63, 0x31, 0x66, 0x61, 0x37, 0x34, 0x32, 0x35, 0x65] ++
      [0x37, 0x33, 0x30, 0x34, 0x33, 0x33, 0x36, 0x32, 0x39, 0x33, 0x38, 0x62, 0x39, 0x38, 0x32, 0x34]⟩ := by
  decide +kernel

/-- T-P5: HEXDIGEST on an ill-formed context. -/
theorem test_hexdigest_ill_formed : exec .hexdigest zeroState = .next (answered zeroState zeroState.ctx 0x04 []) := by
  rfl

/-- T-I2: the image of "hello". -/
theorem test_snapshot_hello :
    lastResponse (exec .snapshot helloState) = some ⟨0x00,
      [0x06, 0x73, 0x68, 0x61, 0x32, 0x35, 0x36] ++
      [0x67, 0xe6, 0x09, 0x6a, 0x85, 0xae, 0x67, 0xbb, 0x72, 0xf3, 0x6e, 0x3c, 0x3a, 0xf5, 0x4f, 0xa5] ++
      [0x7f, 0x52, 0x0e, 0x51, 0x8c, 0x68, 0x05, 0x9b, 0xab, 0xd9, 0x83, 0x1f, 0x19, 0xcd, 0xe0, 0x5b] ++
      [0x28, 0x00, 0x00, 0x00, 0x00, 0x00, 0x00, 0x00, 0x68, 0x65, 0x6c, 0x6c, 0x6f, 0x00, 0x00, 0x00] ++
      zeros 48 ++ [0x00, 0x00, 0x00, 0x00, 0x00, 0x00, 0x00, 0x00, 0x05, 0x00, 0x00, 0x00, 0x20, 0x00, 0x00, 0x00]⟩ := by
  decide +kernel

/-- T-R16: RESTORE of 112 zero bytes is accepted. -/
theorem test_restore_zeros :
    exec (.restore sha256Tag (zeros 112)) helloState = .next (answered helloState zeroState.ctx 0x00 []) := by
  have h : deserialize imageOrder (zeros 112) = zeroState.ctx := by decide +kernel
  rw [← h]
  rfl

/-- T-I5: the big-endian image of "hello" given to RESTORE loads byte-swapped words. -/
theorem test_restore_other_byte_order :
    (contextAfter (exec (.restore sha256Tag (serialize .big helloState.ctx)) State.reset)).map
      (fun c => (c.h.h0, c.lenLo, c.num, c.mdlen)) = some (0x67e6096a, 0x28000000, 0x05000000, 0x20000000) := by
  decide +kernel

/-- T-I5: in the image of "hello" on the big-endian hardware, `H[0]`, the length words and `NUM`. -/
theorem test_snapshot_big :
    (lastResponse (execIn .big .snapshot helloState)).map (fun r => (slice r.payload 7 4, slice r.payload 39 8,
      slice r.payload 111 4)) = some ([0x6a, 0x09, 0xe6, 0x67], [0, 0, 0, 0x28, 0, 0, 0, 0], [0, 0, 0, 5]) := by decide +kernel

/-- RESTORE on the big-endian hardware of an image with `MDLEN = 32` in its order. -/
theorem test_restore_big :
    (contextAfter (stepIn .big (withMove zeroState (.frame ⟨0x00700606, sha256Tag ++ zeros 111 ++ [0x20]⟩)))).map
      (fun c => (c.mdlen, c.num)) = some (32, 0) := by decide +kernel

/-! ### Witnesses: concrete values that meet the premises of each statement -/

theorem witness_DecodeOfEncode :
    (Instr.absorb hello).wellFormed = true ∧ (Instr.restore sha256Tag (zeros 112)).wellFormed = true ∧
      (Instr.restore (zeros 255) []).wellFormed = true ∧ Instr.snapshot.wellFormed = true := by decide +kernel

theorem witness_EncodeOfDecode :
    decode ⟨0x00000302, [1, 2, 3]⟩ = .ok (.absorb [1, 2, 3]) ∧ decode ⟨0x00010106, [1, 2]⟩ = .ok (.restore [1] [2]) := by
  decide

/-- The mask and match of each row select a word. -/
theorem witness_OpcodeRowsSelectCommands :
    (0x00000001 : Word) &&& 0xFFFFFFFF = 0x00000001 ∧ (0xFFFFFF02 : Word) &&& 0x000000FF = 0x00000002 ∧
      (0x12345606 : Word) &&& 0x000000FF = 0x00000006 ∧ (0x00000005 : Word) &&& 0xFFFFFFFF = 0x00000005 := by decide

/-- One word for each kind of illegal word, at the boundaries: opcode 0, opcodes 7 and 0xFF, and each format Z opcode with
`ARG = 1`. -/
theorem witness_IllegalWordIsAnswered :
    (∀ cw ∈ ([0x00000000, 0xFFFFFF00, 0x00000007, 0x000000FF, 0x00000101, 0x00000103, 0x00000104, 0x80000005] : List Word),
      cw.toNat % 2 ^ 8 = 0 ∨ 7 ≤ cw.toNat % 2 ^ 8 ∨
        ((cw.toNat % 2 ^ 8 = 1 ∨ cw.toNat % 2 ^ 8 = 3 ∨ cw.toNat % 2 ^ 8 = 4 ∨ cw.toNat % 2 ^ 8 = 5) ∧
          cw.toNat / 2 ^ 8 ≠ 0)) ∧
      (withMove zeroState (.frame ⟨0x00000007, [9]⟩)).port = [.frame ⟨0x00000007, [9]⟩] ∧
      (withMove zeroState (.frame ⟨0x80000005, [9]⟩)).port = [.frame ⟨0x80000005, [9]⟩] :=
  ⟨by simp, by decide, by decide⟩

/-- T-E1 through a step: an illegal opcode and a format Z word with a non-zero `ARG`. -/
theorem test_step_illegal_word :
    lastResponse (step (withMove zeroState (.frame ⟨0x00000007, [9]⟩))) = some ⟨0x03, []⟩ ∧
      lastResponse (step (withMove zeroState (.frame ⟨0x80000005, [9]⟩))) = some ⟨0x03, []⟩ := by decide

/-- One frame for each clause: ABSORB with a byte too few, RESTORE with a byte too many, CREATE with a byte. -/
theorem witness_WrongPayloadLengthIsRefused :
    ((0x00000202 : Word).toNat % 2 ^ 8 = 2 ∧ 2 = (0x00000202 : Word).toNat / 2 ^ 8 ∧ [(1 : Byte)].length ≠ 2) ∧
      ((0x00010106 : Word).toNat % 2 ^ 8 = 6 ∧
        2 = (0x00010106 : Word).toNat / 2 ^ 8 % 2 ^ 8 + (0x00010106 : Word).toNat / 2 ^ 16 ∧
        [(1 : Byte), 2, 3].length ≠ 2) ∧
      ((0x00000001 : Word).toNat = 1 ∧ [(1 : Byte)].length ≠ 0) ∧
      (withMove helloState (.frame ⟨0x00000202, [1]⟩)).port = [.frame ⟨0x00000202, [1]⟩] := by decide

theorem witness_StepRunsDecodedCommand :
    (withMove helloState (.frame ⟨0x00000102, [0x78]⟩)).port = [.frame ⟨0x00000102, [0x78]⟩] ∧
      decode ⟨0x00000102, [0x78]⟩ = .ok (.absorb [0x78]) ∧ (Instr.absorb [0x78]).wellFormed = true := by decide

theorem witness_IdlePortHoldsState : helloState.port = [] := rfl

theorem witness_ResetAbandonsCommand :
    (withMove helloState (.reset (some ⟨0x00000102, [0x78]⟩))).port = [.reset (some ⟨0x00000102, [0x78]⟩)] ∧
      (withMove helloState (.reset none)).port = [.reset none] := by decide

theorem witness_StepKeepsInv :
    (withMove helloState (.frame ⟨0x00000102, [0x78]⟩)).Inv ∧
      (contextAfter (step (withMove helloState (.frame ⟨0x00000102, [0x78]⟩)))).isSome = true := by decide +kernel

theorem witness_OnlyRestoreBreaksWellFormed :
    helloState.ctx.WellFormed ∧ (contextAfter (exec (.absorb hello) helloState)).isSome = true := by decide +kernel

theorem witness_AbsorbKeepsNumLenLaw :
    helloState.ctx.WellFormed ∧ helloState.ctx.num.toNat = lenValue helloState.ctx / 8 % 64 ∧
      (contextAfter (exec (.absorb hello) helloState)).isSome = true := by decide +kernel

theorem witness_OnlyWrongPayloadLengthIsRefused :
    step (withMove helloState (.frame ⟨0x00000202, [1]⟩)) = .refused (.payloadLength 2 1) := rfl

theorem witness_ErrorChangesNothing :
    (withMove zeroState (.frame ⟨0x00000003, []⟩)).port = [.frame ⟨0x00000003, []⟩] ∧
      lastResponse (step (withMove zeroState (.frame ⟨0x00000003, []⟩))) = some ⟨0x04, []⟩ ∧ (0x04 : Byte) ≠ 0x00 := by
  decide

theorem witness_CommandDependsOnContextAlone :
    helloState.ctx = (pushResponse helloState ⟨0x02, []⟩).ctx ∧ helloState ≠ pushResponse helloState ⟨0x02, []⟩ := by
  decide

theorem witness_OnlyWritersChangeContext :
    (contextAfter (step (withMove helloState (.frame ⟨0x00000001, []⟩)))).isSome = true ∧
      contextAfter (step (withMove helloState (.frame ⟨0x00000001, []⟩))) ≠ some helloState.ctx := by decide

/-- ABSORB at the clauses' boundaries: no block filled, a block filled exactly, a block filled with bytes left over. -/
theorem witness_AbsorbEffect :
    (helloState.ctx.WellFormed ∧ helloState.ctx.buf.wf = true) ∧
      ((stateWith 504 (pattern 63) 63).ctx.WellFormed ∧ (stateWith 504 (pattern 63) 63).ctx.buf.wf = true) ∧
      (63 + [(1 : Byte)].length) % 64 = 0 ∧ 64 ≤ 63 + [(1 : Byte)].length ∧ (63 + [(1 : Byte), 2].length) % 64 = 1 := by
  decide +kernel

theorem witness_AbsorbAdvancesLen : (stateWith 0xfffffffffffffff8 [] 0).ctx.WellFormed := by decide

theorem witness_AbsorbOneByte :
    (stateWith 504 (pattern 63) 63).ctx.WellFormed ∧ (stateWith 504 (pattern 63) 63).ctx.buf.wf = true ∧
      (stateWith 504 (pattern 63) 63).ctx.num.toNat = 63 ∧ helloState.ctx.WellFormed ∧ helloState.ctx.buf.wf = true ∧
      helloState.ctx.num.toNat ≠ 63 := by decide +kernel

/-- The premises of the frame, an index that no byte goes to, and bytes that do not fill the buffer. -/
theorem witness_AbsorbFrame :
    helloState.ctx.WellFormed ∧ helloState.ctx.buf.wf = true ∧
      (contextAfter (exec (.absorb [0x78]) helloState)).isSome = true ∧
      (∀ i, i < [(0x78 : Byte)].length → 4 ≠ (helloState.ctx.num.toNat + i) % 64) ∧
      [(0x78 : Byte)].length < 64 - helloState.ctx.num.toNat := by decide +kernel

theorem witness_AbsorbNothingIsNoop : (stateWith 504 (pattern 63) 63).ctx.WellFormed := by decide +kernel

/-- Ill-formed by `NUM` alone, ill-formed by `MDLEN`, the largest well-formed `NUM`; an image of each accepted length. -/
theorem witness_IllFormedContextFaults :
    (stateWith 504 (pattern 63) 63).ctx.num.toNat = 63 ∧ (stateWith 504 (pattern 63) 63).ctx.mdlen = 32 ∧ 64 ≤ (stateWith 0 [] 64).ctx.num.toNat ∧ zeroState.ctx.mdlen ≠ 32 ∧ (zeros 112).length = 112 ∧
      (zeros 120).length = 120 := by decide +kernel

theorem witness_ChunkingIndependence : (stateWith 504 (pattern 63) 63).ctx.WellFormed := by decide +kernel

/-- One padding block with the most bytes, two padding blocks with the fewest. -/
theorem witness_DigestResult :
    (stateWith 440 (pattern 55) 55).ctx.WellFormed ∧ (stateWith 448 (pattern 56) 56).ctx.WellFormed := by decide +kernel

theorem witness_PaddingIsShortest :
    (pattern 63).length < 64 ∧ (pattern 55).length < 64 ∧ (pattern 56).length < 64 ∧ ([] : List Byte).length < 64 ∧
      (zeros 8).length = 8 := by decide

/-- Two contexts that differ in the unused tail alone. -/
theorem witness_DigestIgnoresUnusedTail :
    helloState.ctx.WellFormed ∧ (stateWith 40 (hello ++ [7]) 5).ctx.WellFormed ∧
      helloState.ctx.num = (stateWith 40 (hello ++ [7]) 5).ctx.num ∧
      helloState.ctx.lenLo = (stateWith 40 (hello ++ [7]) 5).ctx.lenLo ∧
      helloState.ctx.lenHi = (stateWith 40 (hello ++ [7]) 5).ctx.lenHi ∧
      helloState.ctx.h = (stateWith 40 (hello ++ [7]) 5).ctx.h ∧
      (∀ a, a < helloState.ctx.num.toNat →
        helloState.ctx.buf.read a = (stateWith 40 (hello ++ [7]) 5).ctx.buf.read a) ∧
      helloState.ctx ≠ (stateWith 40 (hello ++ [7]) 5).ctx := by decide +kernel

theorem witness_HexdigestResult : helloState.ctx.WellFormed := by decide

/-- Nibbles on both sides of the boundary between 9 and 10. -/
theorem witness_HexEncodeCharacters :
    0 < [(0x9a : Byte)].length ∧ (byteAt [0x9a] 0).toNat / 16 = 9 ∧ (byteAt [0x9a] 0).toNat % 16 = 10 := by decide

theorem witness_HexEncodeInjective : hexEncode [0x2c, 0xf2] = hexEncode [0x2c, 0xf2] := rfl

theorem witness_ReadersLeaveContext :
    (contextAfter (exec .digest helloState)).isSome = true ∧ (contextAfter (exec .hexdigest helloState)).isSome = true ∧
      (contextAfter (exec .snapshot helloState)).isSome = true := by decide

/-- A reachable context that has absorbed bytes. -/
theorem witness_ReachableContextIsDetermined : ∃ c, Reachable [0x78] c := by
  have h : ∃ t, exec (.absorb [0x78]) State.reset = .next t := ⟨_, rfl⟩
  obtain ⟨t, ht⟩ := h
  exact ⟨t.ctx, Reachable.absorb [] [0x78] State.reset t Reachable.reset ht⟩

theorem witness_ReachableDigestIsSha256 : Reachable [] State.reset.ctx := Reachable.reset

theorem witness_ScheduleRecurrence : (pattern 64).length = 64 := by decide

theorem witness_CompressRoundsAndFeedForward : (zeros 64).length = 64 := by decide

/-- The lowest and the highest bit position. -/
theorem witness_ChoiceAndMajorityBitwise : 0 < 32 ∧ 31 < 32 := by decide

theorem witness_SigmaFunctionsBitwise : 0 < 32 ∧ 31 < 32 := by decide

theorem witness_ShiftAndRotateArithmetic : 0 < 31 ∧ 31 < 32 ∧ 0 < 1 := by decide

theorem witness_RestoreResult : (zeros 112).length = 112 ∧ (zeros 120).length = 120 := by decide

/-- The tags of T-R11 to T-R13 and T-R15. -/
theorem witness_WrongTagIsUnsupportedAlgorithm :
    ([0x53, 0x48, 0x41, 0x32, 0x35, 0x36] : List Byte) ≠ sha256Tag ∧ sha256Tag ++ [0x00] ≠ sha256Tag ∧
      ([] : List Byte) ≠ sha256Tag ∧ sha256Tag.take 5 ≠ sha256Tag := by decide

/-- The lengths of T-R4 to T-R9. -/
theorem witness_WrongLengthIsMalformedState :
    ∀ n ∈ [0, 111, 113, 116, 119, 121], (zeros n).length ≠ 112 ∧ (zeros n).length ≠ 120 := by decide

theorem witness_OversizeBytesAreDiscarded :
    (zeros 112).length = 112 ∧ ([0xde, 0xad, 0xbe, 0xef, 0xca, 0xfe, 0xf0, 0x0d] : List Byte).length = 8 := by decide

theorem witness_RestoreAfterSnapshot : helloState.ctx.buf.wf = true ∧ zeroState.ctx.buf.wf = true := by decide

theorem witness_SnapshotAfterRestore : (pattern 112).length = 112 := by decide

theorem witness_CodecIsBijective : helloState.ctx.buf.wf = true ∧ (pattern 112).length = 112 := by decide

theorem witness_RestoreOfSnapshotResponse : helloState.ctx.buf.wf = true ∧ zeroState.ctx.buf.wf = true := by decide

/-- A frame that decodes, an image of each accepted length and one of neither, another tag. -/
theorem witness_ByteOrderIsAParameter :
    (withMove helloState (.frame ⟨0x00000005, []⟩)).port = [.frame ⟨0x00000005, []⟩] ∧
      decode ⟨0x00000005, []⟩ = .ok .snapshot ∧ (zeros 112).length = 112 ∧ (zeros 120).length = 120 ∧
      (zeros 113).length ≠ 112 ∧ (zeros 113).length ≠ 120 ∧ ([] : List Byte) ≠ sha256Tag ∧
      Instr.digest ≠ .snapshot ∧ ∀ tag image, Instr.digest ≠ .restore tag image := by
  refine ⟨by decide, by decide, by decide, by decide, by decide, by decide, by decide, by decide, fun _ _ => by simp⟩

theorem witness_ForeignImageIsLoadedByteSwapped :
    helloState.ctx.buf.wf = true ∧ helloState.ctx.mdlen = 32 ∧ ByteOrder.big ≠ ByteOrder.little := by decide

theorem witness_UpdateExpansionAbsorbsAll : State.reset.ctx.WellFormed := by decide

end Sys2Proof.Tests
end

-- Proofs of the statements about the scope of the model (spec/00_scope.md).
section
/-! PROOFS. The statements about the scope of the model: the idle port (R19), no access outside the buffer (R13), a command
as a function of the context and its operands (R17), shift and rotation (R12), and the open parameter `SNAP_BYTE_ORDER` (R8). -/

namespace Sys2Proof.Machine

/-! ### The idle port -/

/-- With no move of the host to come the step answers the same state, whatever the commands mean. -/
theorem stepWith_idle {run : Instr → State → Host.Outcome State Fault Refusal} {s : State} (hp : s.port = []) :
    stepWith run s = .next s := by
  simp only [stepWith, hp, idle_eq]

/-- Settles O8: the step with an idle port is `idle`; the two initial values stand in `State.reset`. -/
theorem idlePortHoldsState : Obligations.IdlePortHoldsState :=
  ⟨fun _ hp => stepWith_idle hp, rfl, rfl⟩

/-! ### No step faults -/

/-- A frame that is no command is answered or refused: it ends in no fault. -/
theorem answerUndecoded_ne_fault (e : DecodeError) (s : State) (r : Fault) : answerUndecoded e s ≠ .fault r := by
  cases e with
  | illegalCommand cw => simp [answerUndecoded, raise]
  | payloadLength declared actual => simp [answerUndecoded]

/-- A step adds no fault to those of the commands. -/
theorem stepWith_ne_fault {run : Instr → State → Host.Outcome State Fault Refusal} {r : Fault}
    (hrun : ∀ i s, run i s ≠ .fault r) (s : State) : stepWith run s ≠ .fault r := by
  unfold stepWith
  split
  · simp
  · unfold runFrameWith
    split
    · exact hrun _ _
    · exact answerUndecoded_ne_fault _ _ _
  · simp

/-- No command faults: each answers a next state. -/
theorem exec_ne_fault (i : Instr) (s : State) (r : Fault) : exec i s ≠ .fault r := by
  obtain ⟨c, st, p, h, -⟩ := exec_answers i s
  simp [h]

/-- Settles O15: the only faults a step could have are those of the commands, and the commands have none. -/
theorem stepNeverFaults : Obligations.StepNeverFaults :=
  fun s r => stepWith_ne_fault (fun i t => exec_ne_fault i t r) s

/-! ### A command is a function of the context and its operands -/

/-- Every run answers, and the context left and the response given are functions of the context found. -/
def AnswersFromContext (run : State → Host.Outcome State Fault Refusal) : Prop :=
  ∃ (next : Context → Context) (status : Context → Byte) (payload : Context → List Byte),
    ∀ s, run s = .next (answered s (next s.ctx) (status s.ctx) (payload s.ctx))

/-- A command that begins with the well-formedness test (R130) answers from the context where it does so on well-formed
contexts: the test looks at nothing else. -/
theorem answersFromContext_of_guarded {run body : State → Host.Outcome State Fault Refusal}
    (hrun : ∀ s, run s = guardWellFormed s (body s)) (next : Context → Context) (payload : Context → List Byte)
    (hwf : ∀ s, s.ctx.WellFormed → run s = .next (answered s (next s.ctx) 0x00 (payload s.ctx))) :
    AnswersFromContext run := by
  refine ⟨fun c => if c.WellFormed then next c else c, fun c => if c.WellFormed then 0x00 else 0x04,
    fun c => if c.WellFormed then payload c else [], fun s => ?_⟩
  by_cases h : s.ctx.WellFormed
  · simp only [if_pos h, hwf s h]
  · simp only [if_neg h, hrun s, guardWellFormed_of_not_wf h]

/-- RESTORE answers from the context: its tests look at the operands alone (R165). -/
theorem execRestoreIn_answersFromContext (o : ByteOrder) (tag image : List Byte) :
    AnswersFromContext (execRestoreIn o tag image) := by
  by_cases ht : tag = Config.tag
  · subst ht
    by_cases hl : image.length = 112 ∨ image.length = 120
    · exact ⟨fun _ => deserialize o image, fun _ => 0x00, fun _ => [], fun s => execRestoreIn_accepted o image s hl⟩
    · exact ⟨id, fun _ => 0x02, fun _ => [], fun s => execRestoreIn_malformed o image s hl⟩
  · exact ⟨id, fun _ => 0x01, fun _ => [], fun s => execRestoreIn_unsupported o ht image s⟩

/-- Every command answers from the context, whatever the byte order. -/
theorem execIn_answersFromContext (o : ByteOrder) (i : Instr) : AnswersFromContext (execIn o i) := by
  cases i with
  | create => exact ⟨fun _ => createdCtx, fun _ => 0x00, fun _ => [], fun s => respondOk_setCtx [] s createdCtx⟩
  | absorb data =>
    exact answersFromContext_of_guarded (fun _ => rfl)
      (fun c => data.foldl absorbStep (withLen c (lenAfter c data.length))) (fun _ => [])
      fun _ h => execAbsorb_eq h data
  | digest => exact answersFromContext_of_guarded (fun _ => rfl) id digestBytes fun _ h => execDigest_eq h
  | hexdigest =>
    exact answersFromContext_of_guarded (fun _ => rfl) id (fun c => hexEncode (digestBytes c))
      fun _ h => execHexdigest_eq h
  | snapshot =>
    exact ⟨id, fun _ => 0x00, fun c => labeledPair Config.tag (serialize o c), fun s => respondOk_eq _ s⟩
  | restore tag image => exact execRestoreIn_answersFromContext o tag image

/-- At `little` the commands are those of `exec`. -/
theorem execIn_little : execIn .little = exec :=
  funext fun i => funext fun s => execIn_imageOrder i s

/-- Settles O19: what a command answers is a function of the context found, which the two states share. -/
theorem commandDependsOnContextAlone : Obligations.CommandDependsOnContextAlone := by
  intro i s₁ s₂ hc
  obtain ⟨next, status, payload, h⟩ := execIn_answersFromContext .little i
  rw [execIn_little] at h
  exact ⟨next s₁.ctx, status s₁.ctx, payload s₁.ctx, h s₁, hc ▸ h s₂⟩

/-! ### Shift and rotation -/

/-- `shr` divides by a power of two (R12). -/
theorem toNat_shr (x : Word) (n : Nat) : (shr x n).toNat = x.toNat / 2 ^ n := by
  rw [shr, BitVec.toNat_ushiftRight, Nat.shiftRight_eq_div_pow]

/-- Shifting a word left by `32 - n` keeps its low `n` bits and moves them to the top. -/
theorem mul_two_pow_mod_word (x n : Nat) (hn : n ≤ 32) :
    x * 2 ^ (32 - n) % 2 ^ 32 = (x % 2 ^ n) * 2 ^ (32 - n) := by
  have h32 : 2 ^ 32 = 2 ^ n * 2 ^ (32 - n) := by rw [← pow_add, Nat.add_sub_cancel' hn]
  rw [h32, Nat.mul_mod_mul_right]

/-- `rotr` is a sum: the bits that stay end below bit `32 - n`, the bits that re-enter start there (R12). -/
theorem toNat_rotr (x : Word) (n : Nat) (hn : n ≤ 32) :
    (rotr x n).toNat = x.toNat / 2 ^ n + x.toNat * 2 ^ (32 - n) % 2 ^ 32 := by
  have hlow : x.toNat / 2 ^ n < 2 ^ (32 - n) := by
    rw [Nat.div_lt_iff_lt_mul (Nat.two_pow_pos n), ← pow_add, Nat.sub_add_cancel hn]
    exact x.isLt
  rw [rotr, BitVec.toNat_or, toNat_shr, BitVec.toNat_shiftLeft, Nat.shiftLeft_eq, mul_two_pow_mod_word _ _ hn,
    ← Nat.shiftLeft_eq, Nat.or_comm, ← Nat.shiftLeft_add_eq_or_of_lt hlow, Nat.add_comm]

/-- Settles O41: `toNat_shr` and `toNat_rotr` at the amounts R12 allows. -/
theorem shiftAndRotateArithmetic : Obligations.ShiftAndRotateArithmetic :=
  fun x n _ hn => ⟨toNat_shr x n, toNat_rotr x n hn.le⟩

/-! ### The open parameter -/

/-- The first bytes of the buffer are the reads at the indexes from 0 on. -/
theorem Memory.bytes_zero (m : Memory) (n : Nat) : m.bytes 0 n = (List.range n).map fun a => m.read a := by
  simp only [Memory.bytes, Nat.zero_add]

/-- The response payload of SNAPSHOT, written out: the tag length, the tag, the fields of the image (R55, R80, R161). -/
theorem labeledPair_tag_serialize (o : ByteOrder) (c : Context) :
    labeledPair Config.tag (serialize o c) =
      [0x06, 0x73, 0x68, 0x61, 0x32, 0x35, 0x36] ++
        ((hashList c.h).flatMap (snap32 o) ++ snap32 o c.lenLo ++ snap32 o c.lenHi ++
          (List.range 64).map (fun a => c.buf.read a) ++ snap32 o c.num ++ snap32 o c.mdlen) := by
  rw [← Memory.bytes_zero]
  rfl

/-- SNAPSHOT answers with the labeled pair and changes nothing, whatever the byte order (R161, R162). -/
theorem execIn_snapshot (o : ByteOrder) (s : State) :
    execIn o .snapshot s = .next (answered s s.ctx 0x00 (labeledPair Config.tag (serialize o s.ctx))) := rfl

/-- The hash words of an image, one by one (R55). -/
theorem getD_hashList_deserialize (o : ByteOrder) (image : List Byte) {i : Nat} (hi : i < 8) :
    (hashList (deserialize o image).h).getD i 0 = snap32dec o (slice image (4 * i) 4) := by
  have hwords : hashList (deserialize o image).h = (List.range 8).map fun k => snap32dec o (slice image (4 * k) 4) := rfl
  simp [hwords, List.getD_eq_getElem?_getD, hi]

/-- The buffer bytes of an image, as they are: no byte order applies to them (R54, R55). -/
theorem read_buf_deserialize (o : ByteOrder) {image : List Byte} (hl : 104 ≤ image.length) {a : Nat} (ha : a < 64) :
    (deserialize o image).buf.read a = byteAt image (40 + a) := by
  have hlen : (slice image 40 64).length = 64 := by rw [length_slice]; omega
  calc (deserialize o image).buf.read a
      = byteAt (slice image 40 64) a := read_memFill hlen a
    _ = byteAt image (40 + a) := byteAt_slice image 40 64 a ha

/-- At `little` the step is `step`. -/
theorem stepIn_little : stepIn .little = step := stepIn_imageOrder

/-- At `little` the machine is the machine of the spec. -/
theorem coreIn_little : coreIn .little = Sys2Proof.core := by
  rw [coreIn, stepIn_little, core]

/-- The commands without an image field do not depend on the byte order (R54). -/
theorem execIn_eq_exec (o : ByteOrder) {i : Instr} (hs : i ≠ .snapshot) (hr : ∀ tag image, i ≠ .restore tag image)
    (s : State) : execIn o i s = exec i s := by
  cases i with
  | create | absorb | digest | hexdigest => rfl
  | snapshot => exact absurd rfl hs
  | restore tag image => exact absurd rfl (hr tag image)

/-- Settles O59: the four ends of SNAPSHOT and RESTORE in either byte order, the commands that have no byte order, and the
step and the machine built on them. -/
theorem byteOrderIsAParameter : Obligations.ByteOrderIsAParameter := by
  refine ⟨fun o s => ⟨?snapshot, fun image hl => ?accepted, fun image h112 h120 => ?malformed,
    fun tag image ht => execRestoreIn_unsupported o ht image s, fun i hs hr => execIn_eq_exec o hs hr s,
    fun f rest i hp hd => stepWith_frame hp hd⟩, execIn_little, stepIn_little, coreIn_little⟩
  case snapshot => rw [execIn_snapshot, labeledPair_tag_serialize]
  case accepted =>
    exact ⟨deserialize o image, execRestoreIn_accepted o image s hl,
      fun _ hi => getD_hashList_deserialize o image hi, rfl, rfl,
      fun _ ha => read_buf_deserialize o (by omega) ha, rfl, rfl⟩
  case malformed => exact execRestoreIn_malformed o image s (not_or_intro h112 h120)

end Sys2Proof.Machine
end

-- Proofs of the statements about the state (spec/10_state.md).
section
/-! PROOFS. The statements about the Digest Context as state: the invariant at reset (R39), who writes it (R21), its
well-formedness (R37), what a reachable context holds (R33, R38), and LEN in the image (R25). -/

namespace Sys2Proof.Machine

/-! ### What one command leaves -/

/-- The context an answer leaves. -/
theorem ctx_of_answered {out : Host.Outcome State Fault Refusal} {s t : State} {c : Context} {st : Byte} {p : List Byte}
    (h : out = .next t) (ha : out = .next (answered s c st p)) : t.ctx = c := by
  rw [Host.Outcome.next.inj (h.symm.trans ha), answered_ctx]

/-- An answer leaves the port as the command found it. -/
theorem port_of_answered {out : Host.Outcome State Fault Refusal} {s t : State} {c : Context} {st : Byte} {p : List Byte}
    (h : out = .next t) (ha : out = .next (answered s c st p)) : t.port = s.port := by
  rw [Host.Outcome.next.inj (h.symm.trans ha), answered_port]

/-- CREATE on any context. -/
theorem exec_create (s : State) : exec .create s = .next (answered s createdCtx 0x00 []) := respondOk_setCtx _ _ _

/-- The context ABSORB leaves of a well-formed one: the counter step, then the byte steps (R132). -/
def absorbed (c : Context) (data : List Byte) : Context :=
  data.foldl absorbStep (withLen c (lenAfter c data.length))

/-- ABSORB on a well-formed context. -/
theorem exec_absorb_of_wf {s : State} (hw : s.ctx.WellFormed) (data : List Byte) :
    exec (.absorb data) s = .next (answered s (absorbed s.ctx data) 0x00 []) := execAbsorb_eq hw data

/-- `NUM` after ABSORB: the bytes are counted modulo 64 (R133, R135). -/
theorem absorbed_num {c : Context} (hn : c.num.toNat < 64) (data : List Byte) :
    (absorbed c data).num.toNat = (c.num.toNat + data.length) % 64 := by
  rw [absorbed, foldl_absorbStep_num data (by simpa using hn), withLen_num]

@[simp] theorem absorbed_mdlen (c : Context) (data : List Byte) : (absorbed c data).mdlen = c.mdlen := by
  obtain ⟨-, -, hm⟩ := foldl_absorbStep_fields data (withLen c (lenAfter c data.length))
  rw [absorbed, hm, withLen_mdlen]

/-- `LEN` after ABSORB is the counter step alone: the byte steps leave it (R26, R134). -/
theorem lenValue_absorbed (c : Context) (data : List Byte) : lenValue (absorbed c data) = lenAfter c data.length := by
  obtain ⟨hlo, hhi, -⟩ := foldl_absorbStep_fields data (withLen c (lenAfter c data.length))
  calc lenValue (absorbed c data)
      = lenValue (withLen c (lenAfter c data.length)) := by rw [lenValue, absorbed, hlo, hhi, lenValue]
    _ = lenAfter c data.length := lenValue_withLen c (Nat.mod_lt _ (by decide))

/-- ABSORB keeps a context well-formed. -/
theorem absorbed_wellFormed {c : Context} (hw : c.WellFormed) (data : List Byte) : (absorbed c data).WellFormed := by
  obtain ⟨hn, hm⟩ := hw
  exact ⟨by rw [absorbed_num hn]; exact Nat.mod_lt _ (by decide), by rw [absorbed_mdlen, hm]⟩

/-- The commands that only read the context answer with the context they found, well-formed or not (R21). -/
theorem exec_reader {i : Instr} (hi : i = .digest ∨ i = .hexdigest ∨ i = .snapshot) (s : State) :
    ∃ (st : Byte) (p : List Byte), exec i s = .next (answered s s.ctx st p) := by
  obtain rfl | rfl | rfl := hi
  · by_cases hw : s.ctx.WellFormed
    · exact ⟨_, _, execDigest_eq hw⟩
    · exact ⟨_, _, guardWellFormed_of_not_wf hw _⟩
  · by_cases hw : s.ctx.WellFormed
    · exact ⟨_, _, execHexdigest_eq hw⟩
    · exact ⟨_, _, guardWellFormed_of_not_wf hw _⟩
  · exact ⟨_, _, respondOk_eq _ _⟩

/-! ### Reset, readers and writers -/

/-- Settles O11: the reset buffer lists no entry, and no response has been given. -/
theorem invAtReset : Obligations.InvAtReset :=
  ⟨reset_buf_wf, fun _ hr => absurd hr List.not_mem_nil⟩

/-- Settles O35: a reader answers with the context it found. -/
theorem readersLeaveContext : Obligations.ReadersLeaveContext := by
  intro i s t hi h
  obtain ⟨st, p, ha⟩ := exec_reader hi s
  exact ⟨ctx_of_answered h ha, port_of_answered h ha⟩

/-- Settles O20: an idle port and an illegal word leave the context, and so do the three readers; what is left of the moves
are the writers. -/
theorem onlyWritersChangeContext : Obligations.OnlyWritersChangeContext := by
  intro s t h hne
  obtain ⟨-, rfl⟩ | ⟨p, rest, hp, -⟩ | ⟨f, rest, i, hp, hd, hi⟩ | ⟨f, rest, cw, -, -, rfl⟩ := step_cases h
  case inl => exact absurd rfl hne
  case inr.inl => exact ⟨_, rest, hp, .inl ⟨p, rfl⟩⟩
  case inr.inr.inr => exact absurd (answered_ctx _ _ _ _) hne
  case inr.inr.inl =>
    have hreader : ¬ (i = .digest ∨ i = .hexdigest ∨ i = .snapshot) := fun hr =>
      hne (readersLeaveContext i _ t hr hi).1
    refine ⟨_, rest, hp, .inr ⟨f, rfl, ?_⟩⟩
    cases i with
    | create => exact .inl hd
    | absorb data => exact .inr (.inl ⟨data, hd⟩)
    | restore tag image => exact .inr (.inr ⟨tag, image, hd⟩)
    | digest | hexdigest | snapshot => simp at hreader

/-! ### Well-formed contexts -/

/-- The context CREATE makes is well-formed. -/
theorem createdCtx_wellFormed : createdCtx.WellFormed := by decide

/-- Settles O13: CREATE makes a well-formed context, ABSORB keeps one, and the readers leave the one they found. -/
theorem onlyRestoreBreaksWellFormed : Obligations.OnlyRestoreBreaksWellFormed := by
  intro i s t hi hw h
  cases i with
  | create => exact ctx_of_answered h (exec_create s) ▸ createdCtx_wellFormed
  | absorb data => exact ctx_of_answered h (exec_absorb_of_wf hw data) ▸ absorbed_wellFormed hw data
  | digest | hexdigest | snapshot => rw [(readersLeaveContext _ s t (by simp) h).1]; exact hw
  | restore tag image => exact absurd rfl (hi tag image)

/-- Settles O14: both sides grow by the number of bytes; since 2^64 / 8 is a multiple of 64, the wrap of `LEN` is not seen. -/
theorem absorbKeepsNumLenLaw : Obligations.AbsorbKeepsNumLenLaw := by
  intro data s t hw hlaw h
  rw [ctx_of_answered h (exec_absorb_of_wf hw data), absorbed_num hw.1, lenValue_absorbed, lenAfter, hlaw]
  omega

/-- Settles O27: the three guarded commands test `NUM` and `MDLEN` alone, and the other three do not test the context. -/
theorem illFormedContextFaults : Obligations.IllFormedContextFaults := by
  intro s
  refine ⟨fun hill => ?ill, fun hw => ?wf, ⟨_, exec_create s⟩, ⟨_, respondOk_eq _ s⟩,
    fun image hl => ⟨_, execRestore_accepted image s hl⟩⟩
  case ill =>
    have hw : ¬ s.ctx.WellFormed := fun ⟨hn, hm⟩ => hill.elim (Nat.not_le_of_lt hn) (absurd hm)
    exact ⟨fun data => guardWellFormed_of_not_wf hw _, guardWellFormed_of_not_wf hw _, guardWellFormed_of_not_wf hw _⟩
  case wf => exact ⟨fun data => ⟨_, exec_absorb_of_wf hw data⟩, ⟨_, execDigest_eq hw⟩, ⟨_, execHexdigest_eq hw⟩⟩

/-! ### LEN in the image -/

/-- A little-endian image word is the sum of its four bytes (R11, R55). -/
theorem toNat_imageWord_little (image : List Byte) (off : Nat) :
    (imageWord .little image off).toNat = (byteAt image (off + 3)).toNat * 2 ^ 24 +
      (byteAt image (off + 2)).toNat * 2 ^ 16 + (byteAt image (off + 1)).toNat * 2 ^ 8 + (byteAt image off).toNat := by
  rw [imageWord, snap32dec, toNat_le32dec, byteAt_slice _ _ _ 3 (by decide), byteAt_slice _ _ _ 2 (by decide),
    byteAt_slice _ _ _ 1 (by decide), byteAt_slice _ _ _ 0 (by decide)]
  rfl

/-- The field `LEN_LO` of an image, at offset 32 (R55). -/
theorem imageWord_serialize_lenLo (o : ByteOrder) (c : Context) : imageWord o (serialize o c) 32 = c.lenLo := by
  have hslice : slice (serialize o c) 32 4 = snap32 o c.lenLo := by cases o <;> rfl
  rw [imageWord, hslice, snap32dec_snap32]

/-- The field `LEN_HI` of an image, at offset 36 (R55). -/
theorem imageWord_serialize_lenHi (o : ByteOrder) (c : Context) : imageWord o (serialize o c) 36 = c.lenHi := by
  have hslice : slice (serialize o c) 36 4 = snap32 o c.lenHi := by cases o <;> rfl
  rw [imageWord, hslice, snap32dec_snap32]

/-- Settles O47: the two halves of `LEN` stand next to each other, the low one first, each little-endian. -/
theorem imageHoldsLenLittleEndian : Obligations.ImageHoldsLenLittleEndian := by
  intro c
  have hlo := toNat_imageWord_little (serialize .little c) 32
  have hhi := toNat_imageWord_little (serialize .little c) 36
  rw [imageWord_serialize_lenLo] at hlo
  rw [imageWord_serialize_lenHi] at hhi
  rw [lenValue, hlo, hhi]
  ring

/-! ### The blocks of a byte sequence that grows -/

/-- The whole blocks of a byte sequence are those it had before bytes were added. -/
theorem foldl_compress_slice_append (h : HashWords) (m x : List Byte) :
    (List.range (m.length / 64)).foldl (fun acc k => compress acc (slice (m ++ x) (64 * k) 64)) h = hashBlocks h m := by
  refine List.foldl_ext _ _ _ fun acc k hk => ?_
  have hk : k < m.length / 64 := List.mem_range.1 hk
  rw [slice_append_left (by omega)]

/-- Bytes that complete no block leave the compressions of the whole blocks as they are. -/
theorem hashBlocks_append_of_lt (h : HashWords) {m x : List Byte} (hx : m.length % 64 + x.length < 64) :
    hashBlocks h (m ++ x) = hashBlocks h m := by
  have hq : (m ++ x).length / 64 = m.length / 64 := by rw [List.length_append]; omega
  rw [hashBlocks, hq, foldl_compress_slice_append]

/-- Bytes that complete a block add its compression to those before. -/
theorem hashBlocks_append_of_eq (h : HashWords) {m x : List Byte} (hx : m.length % 64 + x.length = 64) :
    hashBlocks h (m ++ x) = compress (hashBlocks h m) (slice (m ++ x) (64 * (m.length / 64)) 64) := by
  have hq : (m ++ x).length / 64 = m.length / 64 + 1 := by rw [List.length_append]; omega
  rw [hashBlocks, hq, List.range_succ, List.foldl_append, foldl_compress_slice_append, List.foldl_cons, List.foldl_nil]

/-- The buffer byte at an index after the bytes `m`: of the block begun, else of the block before it, else 0x00 (R33). -/
def bufferByte (m : List Byte) (a : Nat) : Byte :=
  if a < m.length % 64 then byteAt m (64 * (m.length / 64) + a)
  else if 64 ≤ m.length then byteAt m (64 * (m.length / 64 - 1) + a) else 0x00

/-- Each of the last 64 bytes is in the buffer, at its position modulo 64. -/
theorem bufferByte_of_lt {m : List Byte} {p : Nat} (hp : p < m.length) (hlast : m.length ≤ p + 64) :
    bufferByte m (p % 64) = byteAt m p := by
  unfold bufferByte
  split_ifs
  · congr 1; omega
  · congr 1; omega
  · omega

/-- An index no byte has gone to holds 0x00. -/
theorem bufferByte_of_length_le {m : List Byte} {a : Nat} (ha : a < 64) (hm : m.length ≤ a) : bufferByte m a = 0x00 := by
  rw [bufferByte, if_neg (by omega), if_neg (by omega)]

/-- One more byte changes the buffer byte at the place it goes to, and no other. -/
theorem bufferByte_append_singleton (m : List Byte) (b : Byte) {a : Nat} (ha : a < 64) :
    bufferByte (m ++ [b]) a = if a = m.length % 64 then b else bufferByte m a := by
  have hlen : (m ++ [b]).length = m.length + 1 := by simp
  split_ifs with hnew
  · rw [hnew, bufferByte_of_lt (by omega) (by omega), byteAt_append, if_neg (lt_irrefl _), Nat.sub_self]
    rfl
  · by_cases hm : m.length ≤ a
    · rw [bufferByte_of_length_le ha (by omega), bufferByte_of_length_le ha hm]
    · obtain ⟨p, hp, hlast, rfl⟩ : ∃ p, p < m.length ∧ m.length ≤ p + 64 ∧ p % 64 = a :=
        ⟨a + 64 * ((m.length - 1 - a) / 64), by omega, by omega, by omega⟩
      rw [bufferByte_of_lt (by omega) (by omega), bufferByte_of_lt hp hlast, byteAt_append, if_pos hp]

/-! ### What a reachable context holds -/

/-- The context holds the bytes `m`: `H`, `NUM` and the buffer are those of `m` (R33, R38). -/
structure HoldsBytes (m : List Byte) (c : Context) : Prop where
  h : c.h = hashBlocks hInit m
  num : c.num.toNat = m.length % 64
  wf : c.buf.wf = true
  read : ∀ a, a < 64 → c.buf.read a = bufferByte m a

/-- The reset context holds no bytes. -/
theorem holdsBytes_reset : HoldsBytes [] State.reset.ctx := ⟨rfl, rfl, reset_buf_wf, fun _ _ => rfl⟩

/-- The counter step moves no bytes. -/
theorem holdsBytes_withLen {m : List Byte} {c : Context} (hc : HoldsBytes m c) (len : Nat) :
    HoldsBytes m (withLen c len) := by
  obtain ⟨hh, hn, hw, hr⟩ := hc
  exact ⟨by simpa using hh, by simpa using hn, by simpa using hw, by simpa using hr⟩

/-- A buffer that holds whole blocks, read out, is the last of them. -/
theorem bytes_eq_slice_of_read {m : List Byte} {buf : Memory} {q : Nat} (hm : m.length = 64 * q + 64)
    (hr : ∀ a, a < 64 → buf.read a = bufferByte m a) : buf.bytes 0 64 = slice m (64 * q) 64 := by
  refine ext_byteAt (by simp; omega) fun i hi => ?_
  have hi : i < 64 := by simpa using hi
  calc byteAt (buf.bytes 0 64) i
      = buf.read i := by rw [byteAt, Memory.getD_bytes, if_pos hi, Nat.zero_add]
    _ = bufferByte m ((64 * q + i) % 64) := by rw [hr i hi, Nat.mul_add_mod, Nat.mod_eq_of_lt hi]
    _ = byteAt m (64 * q + i) := bufferByte_of_lt (by omega) (by omega)
    _ = byteAt (slice m (64 * q) 64) i := (byteAt_slice _ _ _ _ hi).symm

/-- The byte step adds its byte to those held: the full buffer it compresses is the block the byte completes. -/
theorem holdsBytes_absorbStep {m : List Byte} {c : Context} (hc : HoldsBytes m c) (b : Byte) :
    HoldsBytes (m ++ [b]) (absorbStep c b) := by
  obtain ⟨hh, hn, hw, hr⟩ := hc
  have hlt : c.num.toNat < 64 := by omega
  have hlen : (m ++ [b]).length = m.length + 1 := by simp
  have hread : ∀ a, a < 64 → (c.buf.write c.num.toNat b).read a = bufferByte (m ++ [b]) a := fun a ha => by
    rw [Memory.read_write hw, bufferByte_append_singleton m b ha, hn, hr a ha]
  refine ⟨?h, ?num, ?wf, ?read⟩
  case h =>
    rw [absorbStep_h, hh]
    split_ifs with h63
    · rw [h63] at hread
      rw [bytes_eq_slice_of_read (q := m.length / 64) (by omega) hread,
        hashBlocks_append_of_eq hInit (by simp only [List.length_singleton]; omega)]
    · rw [hashBlocks_append_of_lt hInit (by simp only [List.length_singleton]; omega)]
  case num => rw [absorbStep_num hlt, hn, hlen, Nat.mod_add_mod]
  case wf => rw [absorbStep_buf]; exact Memory.write_wf hw hlt b
  case read => rw [absorbStep_buf]; exact hread

/-- The byte steps add their bytes to those held. -/
theorem holdsBytes_foldl_absorbStep {m : List Byte} {c : Context} (hc : HoldsBytes m c) (data : List Byte) :
    HoldsBytes (m ++ data) (data.foldl absorbStep c) := by
  induction data generalizing m c with
  | nil => rw [List.append_nil]; exact hc
  | cons b bs ih => rw [List.append_cons]; exact ih (holdsBytes_absorbStep hc b)

/-- What holds of the reset context with no bytes, and is kept when ABSORB takes bytes on a well-formed context, holds of
every reachable context with its bytes (R38). -/
theorem Reachable.induct_absorbed {P : List Byte → Context → Prop} (hreset : P [] State.reset.ctx)
    (habsorb : ∀ (m data : List Byte) (c : Context), c.WellFormed → P m c → P (m ++ data) (absorbed c data))
    {m : List Byte} {c : Context} (hc : Reachable m c) : c.WellFormed ∧ P m c := by
  induction hc with
  | reset => exact ⟨by decide, hreset⟩
  | create s t h =>
    rw [ctx_of_answered h (exec_create s), createdCtx_eq_reset]
    exact ⟨by decide, hreset⟩
  | absorb m data s t _ h ih =>
    obtain ⟨hw, hP⟩ := ih
    rw [ctx_of_answered h (exec_absorb_of_wf hw data)]
    exact ⟨absorbed_wellFormed hw data, habsorb m data s.ctx hw hP⟩

/-- `H`, `NUM` and the buffer of a reachable context are those of the bytes absorbed. -/
theorem Reachable.holdsBytes {m : List Byte} {c : Context} (hc : Reachable m c) : HoldsBytes m c :=
  (Reachable.induct_absorbed holdsBytes_reset
    (fun _ data _ _ hP => holdsBytes_foldl_absorbStep (holdsBytes_withLen hP _) data) hc).2

/-- `LEN` of a reachable context counts the bits absorbed, modulo 2^64 (R26). -/
theorem Reachable.lenValue_eq {m : List Byte} {c : Context} (hc : Reachable m c) :
    lenValue c = 8 * m.length % 2 ^ 64 := by
  refine (Reachable.induct_absorbed (P := fun m c => lenValue c = 8 * m.length % 2 ^ 64) (by decide)
    (fun m data c _ hP => ?_) hc).2
  rw [lenValue_absorbed, lenAfter, hP, List.length_append]
  omega

/-- A reachable context is well-formed (R38). -/
theorem Reachable.wellFormed {m : List Byte} {c : Context} (hc : Reachable m c) : c.WellFormed :=
  (Reachable.induct_absorbed (P := fun _ _ => True) trivial (fun _ _ _ _ _ => trivial) hc).1

/-- Settles O36: by induction over how the context was reached; the byte step keeps `HoldsBytes`. -/
theorem reachableContextIsDetermined : Obligations.ReachableContextIsDetermined := by
  intro m c hc
  obtain ⟨hh, hn, -, hr⟩ := hc.holdsBytes
  exact ⟨hh, hc.lenValue_eq, hn, hc.wellFormed.2, hr⟩

end Sys2Proof.Machine
end

-- Proofs of the statements about the memory and the image (spec/20_memory.md).
section
/-! PROOFS. The statements about the block buffer and the snapshot image: the invariant every step keeps (R50), the layout
of the image (R55), the codec as a bijection (R55, R160), and an image read in the other byte order (R54). -/

namespace Sys2Proof.Machine

/-! ### The invariant -/

/-- An answer keeps the invariant where the new buffer is in canonical form and the response is one the spec allows. -/
theorem State.Inv.answered {s : State} (hs : s.Inv) {c : Context} {st : Byte} {p : List Byte} (hb : c.buf.wf = true)
    (hr : Response.Legal ⟨st, p⟩) : (Machine.answered s c st p).Inv := by
  refine ⟨hb, fun r hmem => ?_⟩
  rw [answered_responses, List.mem_append, List.mem_singleton] at hmem
  obtain hold | rfl := hmem
  · exact hs.2 r hold
  · exact hr

/-- Every command keeps the invariant. -/
theorem exec_keeps_inv {i : Instr} {s t : State} (hs : s.Inv) (h : exec i s = .next t) : t.Inv := by
  obtain ⟨c, st, p, ha, hst, herr, hbuf⟩ := exec_answers i s
  obtain rfl : t = answered s c st p := Host.Outcome.next.inj (h.symm.trans ha)
  exact hs.answered (hbuf hs.1) ⟨hst, fun hne => (herr hne).2⟩

/-- Settles O12: the moves of `step_cases` one by one; taking a move from the port touches neither part of the invariant. -/
theorem stepKeepsInv : Obligations.StepKeepsInv := by
  intro s t hs h
  obtain ⟨-, rfl⟩ | ⟨_, rest, -, rfl⟩ | ⟨_, rest, i, -, -, hi⟩ | ⟨_, rest, _, -, -, rfl⟩ := step_cases h
  case inl => exact hs
  case inr.inl => exact ⟨reset_buf_wf, hs.2⟩
  case inr.inr.inl => exact exec_keeps_inv (s := { s with port := rest }) hs hi
  case inr.inr.inr => exact State.Inv.answered (s := { s with port := rest }) hs hs.1 (by decide)

/-! ### Words in a row -/

@[simp] theorem length_flatMap_snap32 (o : ByteOrder) (ws : List Word) :
    (ws.flatMap (snap32 o)).length = 4 * ws.length := by
  induction ws with
  | nil => rfl
  | cons w ws ih => rw [List.flatMap_cons, List.length_append, length_snap32, ih, List.length_cons]; omega

/-- Of words written in a row, word `i` stands at offset `4i`. -/
theorem slice_flatMap_snap32 (o : ByteOrder) {ws : List Word} {i : Nat} (hi : i < ws.length) :
    slice (ws.flatMap (snap32 o)) (4 * i) 4 = snap32 o (ws.getD i 0) := by
  induction ws generalizing i with
  | nil => exact absurd hi (Nat.not_lt_zero i)
  | cons w ws ih =>
    rw [List.flatMap_cons]
    cases i with
    | zero => rw [slice_append_left (by simp), slice_all (length_snap32 o w), List.getD_cons_zero]
    | succ i =>
      have hoff : 4 * (i + 1) - (snap32 o w).length = 4 * i := by rw [length_snap32]; omega
      rw [slice_append_right (by simp), hoff, ih (by simpa using hi), List.getD_cons_succ]

/-- Words read in a row and written in a row are the bytes they were read from. -/
theorem flatMap_snap32_imageWord (o : ByteOrder) (image : List Byte) (off : Nat) {n : Nat}
    (h : off + 4 * n ≤ image.length) :
    ((List.range n).map fun k => imageWord o image (off + 4 * k)).flatMap (snap32 o) = slice image off (4 * n) := by
  induction n with
  | zero => simp [slice]
  | succ n ih =>
    have hlen : (slice image (off + 4 * n) 4).length = 4 := by rw [length_slice]; omega
    rw [List.range_succ, List.map_append, List.flatMap_append, ih (by omega), Nat.mul_succ, ← slice_append_slice]
    simp [imageWord, snap32_snap32dec o hlen]

/-! ### The three parts of an image -/

/-- The words of an image in front of the buffer bytes (R55). -/
def headWords (c : Context) : List Word := hashList c.h ++ [c.lenLo, c.lenHi]

/-- The words of an image after the buffer bytes (R55). -/
def tailWords (c : Context) : List Word := [c.num, c.mdlen]

@[simp] theorem length_headWords (c : Context) : (headWords c).length = 10 := rfl
@[simp] theorem length_tailWords (c : Context) : (tailWords c).length = 2 := rfl

/-- An image is ten words, the 64 buffer bytes, and two words (R55). -/
theorem serialize_eq (o : ByteOrder) (c : Context) :
    serialize o c = (headWords c).flatMap (snap32 o) ++ c.buf.bytes 0 64 ++ (tailWords c).flatMap (snap32 o) := by
  simp [serialize, headWords, tailWords]

@[simp] theorem length_serialize (o : ByteOrder) (c : Context) : (serialize o c).length = 112 := by
  simp [serialize_eq]

theorem slice_serialize_head (o : ByteOrder) (c : Context) {i : Nat} (hi : i < 10) :
    slice (serialize o c) (4 * i) 4 = snap32 o ((headWords c).getD i 0) := by
  rw [serialize_eq, List.append_assoc, slice_append_left (by simp; omega), slice_flatMap_snap32 o (by simpa using hi)]

theorem slice_serialize_buf (o : ByteOrder) (c : Context) : slice (serialize o c) 40 64 = c.buf.bytes 0 64 := by
  have hoff : 40 - ((headWords c).flatMap (snap32 o)).length = 0 := by simp
  rw [serialize_eq, slice_append_left (by simp), slice_append_right (by simp), hoff,
    slice_all (Memory.length_bytes _ _ _)]

theorem slice_serialize_tail (o : ByteOrder) (c : Context) {i : Nat} (hi : i < 2) :
    slice (serialize o c) (104 + 4 * i) 4 = snap32 o ((tailWords c).getD i 0) := by
  have hoff : 104 + 4 * i - ((headWords c).flatMap (snap32 o) ++ c.buf.bytes 0 64).length = 4 * i := by simp
  rw [serialize_eq, slice_append_right (by simp), hoff, slice_flatMap_snap32 o (by simpa using hi)]

/-- Settles O46: each field is a slice of one of the three parts. -/
theorem imageLayout : Obligations.ImageLayout := by
  intro o c
  refine ⟨length_serialize o c, fun i hi => ?hash, slice_serialize_head o c (i := 8) (by decide),
    slice_serialize_head o c (i := 9) (by decide), fun i hi => ?buf, slice_serialize_tail o c (i := 0) (by decide),
    slice_serialize_tail o c (i := 1) (by decide)⟩
  case hash =>
    rw [slice_serialize_head o c (by omega), headWords, List.getD_append _ _ _ _ hi]
  case buf =>
    rw [← byteAt_slice _ 40 64 i hi, slice_serialize_buf, byteAt, Memory.getD_bytes, if_pos hi, Nat.zero_add]

/-! ### Image to context and back -/

theorem headWords_deserialize (o : ByteOrder) (image : List Byte) :
    headWords (deserialize o image) = (List.range 10).map fun k => imageWord o image (0 + 4 * k) := rfl

theorem tailWords_deserialize (o : ByteOrder) (image : List Byte) :
    tailWords (deserialize o image) = (List.range 2).map fun k => imageWord o image (104 + 4 * k) := rfl

/-- A buffer filled with 64 bytes reads as these bytes. -/
theorem bytes_memFill {v : List Byte} (hv : v.length = 64) : (memFill v).bytes 0 64 = v := by
  refine ext_byteAt (by simp [hv]) fun i hi => ?_
  have hi : i < 64 := by simpa using hi
  rw [byteAt, Memory.getD_bytes, if_pos hi, Nat.zero_add, read_memFill hv]
  rfl

/-- A buffer in canonical form is the fill of its bytes. -/
theorem memFill_bytes {m : Memory} (hm : m.wf = true) : memFill (m.bytes 0 64) = m := by
  refine Memory.ext (memFill_wf _) hm fun a => ?_
  rw [read_memFill (Memory.length_bytes _ _ _), Memory.getD_bytes, Nat.zero_add]
  split_ifs with ha
  · rfl
  · exact (Memory.read_of_ge hm (Nat.le_of_not_lt ha)).symm

/-- Writing an image in one order and reading it in another recodes the words in front of the buffer bytes. -/
theorem headWords_deserialize_serialize (o o' : ByteOrder) (c : Context) :
    headWords (deserialize o' (serialize o c)) = (headWords c).map fun v => snap32dec o' (snap32 o v) := by
  rw [headWords_deserialize]
  calc (List.range 10).map (fun k => imageWord o' (serialize o c) (0 + 4 * k))
      = (List.range 10).map fun k => snap32dec o' (snap32 o ((headWords c).getD k 0)) :=
        List.map_congr_left fun k hk => by
          rw [imageWord, Nat.zero_add, slice_serialize_head o c (List.mem_range.1 hk)]
    _ = (headWords c).map fun v => snap32dec o' (snap32 o v) := rfl

/-- The same for the words after the buffer bytes. -/
theorem tailWords_deserialize_serialize (o o' : ByteOrder) (c : Context) :
    tailWords (deserialize o' (serialize o c)) = (tailWords c).map fun v => snap32dec o' (snap32 o v) := by
  rw [tailWords_deserialize]
  calc (List.range 2).map (fun k => imageWord o' (serialize o c) (104 + 4 * k))
      = (List.range 2).map fun k => snap32dec o' (snap32 o ((tailWords c).getD k 0)) :=
        List.map_congr_left fun k hk => by rw [imageWord, slice_serialize_tail o c (List.mem_range.1 hk)]
    _ = (tailWords c).map fun v => snap32dec o' (snap32 o v) := rfl

/-- The buffer bytes have no byte order (R54): they come back from an image read in any order. -/
theorem buf_deserialize_serialize (o o' : ByteOrder) {c : Context} (hw : c.buf.wf = true) :
    (deserialize o' (serialize o c)).buf = c.buf := by
  rw [deserialize, slice_serialize_buf, memFill_bytes hw]

/-- The three parts of the image determine the context. -/
theorem Context.ext_image {c c' : Context} (hhead : headWords c = headWords c') (hbuf : c.buf = c'.buf)
    (htail : tailWords c = tailWords c') : c = c' := by
  obtain ⟨⟨⟩, _, _, _, _, _⟩ := c
  obtain ⟨⟨⟩, _, _, _, _, _⟩ := c'
  simp_all [headWords, tailWords, hashList]

/-- An image read in the order it was written in gives the context back (R160). -/
theorem deserialize_serialize (o : ByteOrder) {c : Context} (hw : c.buf.wf = true) :
    deserialize o (serialize o c) = c := by
  refine Context.ext_image ?head (buf_deserialize_serialize o o hw) ?tail
  case head => simp [headWords_deserialize_serialize]
  case tail => simp [tailWords_deserialize_serialize]

/-- A context read from 112 bytes is written as these bytes: nothing was mended or lost (R160). -/
theorem serialize_deserialize (o : ByteOrder) {image : List Byte} (hl : image.length = 112) :
    serialize o (deserialize o image) = image := by
  have hbuf : (deserialize o image).buf.bytes 0 64 = slice image 40 64 := bytes_memFill (by simp [hl])
  rw [serialize_eq, headWords_deserialize, tailWords_deserialize, hbuf,
    flatMap_snap32_imageWord o image 0 (by omega), flatMap_snap32_imageWord o image 104 (by omega)]
  calc slice image 0 40 ++ slice image 40 64 ++ slice image 104 8
      = slice image 0 104 ++ slice image 104 8 := by rw [slice_append_slice image 0 40 64]
    _ = slice image 0 112 := slice_append_slice image 0 104 8
    _ = image := slice_all hl

/-- Settles O54: the two round trips. -/
theorem codecIsBijective : Obligations.CodecIsBijective :=
  fun o => ⟨fun _ hw => deserialize_serialize o hw, fun _ hl => serialize_deserialize o hl⟩

/-! ### An image in the other byte order -/

/-- A word written in one order and read in the other has its bytes swapped. -/
theorem snap32dec_snap32_of_ne {o o' : ByteOrder} (hne : o' ≠ o) (v : Word) :
    snap32dec o' (snap32 o v) = swapWord v := by
  match o, o', hne with
  | .big, .little, _ => rfl
  | .little, .big, _ => rfl
  | .little, .little, hne | .big, .big, hne => exact absurd rfl hne

/-- The words of an image read in the other order are those of the context, byte-swapped. -/
theorem words_deserialize_foreign {o o' : ByteOrder} (hne : o' ≠ o) (c : Context) :
    headWords (deserialize o' (serialize o c)) = (headWords c).map swapWord ∧
      tailWords (deserialize o' (serialize o c)) = (tailWords c).map swapWord := by
  rw [headWords_deserialize_serialize, tailWords_deserialize_serialize, funext (snap32dec_snap32_of_ne hne)]
  exact ⟨rfl, rfl⟩

/-- On an ill-formed context ABSORB, DIGEST and HEXDIGEST answer `ContextFault`, whatever the byte order (R37). -/
theorem execIn_of_not_wf (o : ByteOrder) {i : Instr} (hi : (∃ data, i = .absorb data) ∨ i = .digest ∨ i = .hexdigest)
    {s : State} (hw : ¬ s.ctx.WellFormed) : execIn o i s = .next (answered s s.ctx 0x04 []) := by
  obtain ⟨data, rfl⟩ | rfl | rfl := hi <;> exact guardWellFormed_of_not_wf hw _

/-- Byte-swapped, the value 32 of `MDLEN` is another value. -/
theorem swapWord_mdlen_ne : swapWord 32 ≠ 32 := by decide

/-- Settles O60: the image is `serialize` in the one order, the context loaded `deserialize` of it in the other. -/
theorem foreignImageIsLoadedByteSwapped : Obligations.ForeignImageIsLoadedByteSwapped := by
  intro o o' s s' hw
  refine ⟨serialize o s.ctx, deserialize o' (serialize o s.ctx), execIn_snapshot o s,
    execRestoreIn_accepted o' _ s' (.inl (length_serialize o s.ctx)), fun heq => ?same, fun hne => ?foreign⟩
  case same => rw [heq, deserialize_serialize o hw]
  case foreign =>
    obtain ⟨hhead, htail⟩ := words_deserialize_foreign hne s.ctx
    have hbuf := buf_deserialize_serialize o o' hw
    generalize deserialize o' (serialize o s.ctx) = c at hhead htail hbuf ⊢
    rw [headWords, headWords, List.map_append] at hhead
    obtain ⟨hhash, hlen⟩ := List.append_inj hhead rfl
    obtain ⟨hlo, hhi⟩ : c.lenLo = swapWord s.ctx.lenLo ∧ c.lenHi = swapWord s.ctx.lenHi := by simpa using hlen
    obtain ⟨hnum, hmdlen⟩ : c.num = swapWord s.ctx.num ∧ c.mdlen = swapWord s.ctx.mdlen := by
      simpa [tailWords] using htail
    refine ⟨hhash, hlo, hhi, fun a _ => by rw [hbuf], hnum, hmdlen, fun h32 i hi => ?_⟩
    refine execIn_of_not_wf o' hi fun ⟨_, hwf⟩ => swapWord_mdlen_ne ?_
    calc swapWord 32 = c.mdlen := by rw [hmdlen, h32]
      _ = 32 := hwf

end Sys2Proof.Machine
end

-- Proofs of the statements about the encoding (spec/30_encoding.md).
section
/-! PROOFS. The statements about frames and command words: the decoder and the encoder are inverse (R71 to R76), the
opcode map (R75), illegal words (R77) and payloads of another length than declared (R74). -/

namespace Sys2Proof

/-! ### What a legal command word says -/

/-- The number of the command word of a header, from the formats of R72 and the opcodes of R75. -/
def Header.number : Header → Nat
  | .create => 1
  | .absorb n => n * 2 ^ 8 + 2
  | .digest => 3
  | .hexdigest => 4
  | .snapshot => 5
  | .restore tagLen bLen => bLen * 2 ^ 16 + tagLen * 2 ^ 8 + 6

/-- The operand lengths of a header fit the fields `N`, `TAGLEN` and `BLEN` (R72). -/
def Header.Fits : Header → Prop
  | .absorb n => n < 2 ^ 24
  | .restore tagLen bLen => tagLen < 2 ^ 8 ∧ bLen < 2 ^ 16
  | .create | .digest | .hexdigest | .snapshot => True

/-- A word decodes to a header exactly when it is the word of that header: the fields do not overlap, and the opcodes tell
the commands apart (R72, R75, R76). -/
theorem decodeWord_eq_some_iff (cw : Word) (hd : Header) :
    decodeWord cw = some hd ↔ hd.Fits ∧ cw.toNat = hd.number := by
  have hcw := cw.isLt
  rw [decodeWord_nat]
  cases hd with
  | create | absorb | digest | hexdigest | snapshot | restore =>
    simp only [Header.Fits, Header.number]
    split_ifs <;> simp <;> omega

/-! ### The decoder by its three ends -/

/-- A frame of a legal word with the declared payload length decodes to the command cut out of it. -/
theorem decode_of_length_eq {f : Frame} {hd : Header} (hw : decodeWord f.cw = some hd)
    (hl : f.payload.length = declaredLength hd) : decode f = .ok (assembleInstr hd f.payload) := by
  simp only [decode, hw, if_pos hl]

/-- A frame of a legal word with another payload length is no command (R74). -/
theorem decode_of_length_ne {f : Frame} {hd : Header} (hw : decodeWord f.cw = some hd)
    (hl : f.payload.length ≠ declaredLength hd) :
    decode f = .error (.payloadLength (declaredLength hd) f.payload.length) := by
  simp only [decode, hw, if_neg hl]

/-- A frame of an illegal word is no command, whatever its payload (R77). -/
theorem decode_of_illegal {f : Frame} (hw : decodeWord f.cw = none) : decode f = .error (.illegalCommand f.cw) := by
  simp only [decode, hw]

/-- Only a frame of a legal word with another payload length ends in the error of that name. -/
theorem decode_eq_payloadLength {f : Frame} {declared actual : Nat}
    (h : decode f = .error (.payloadLength declared actual)) :
    ∃ hd, decodeWord f.cw = some hd ∧ f.payload.length ≠ declaredLength hd ∧ declared = declaredLength hd ∧
      actual = f.payload.length := by
  cases hw : decodeWord f.cw with
  | none => simp [decode_of_illegal hw] at h
  | some hd =>
    by_cases hl : f.payload.length = declaredLength hd
    · simp [decode_of_length_eq hw hl] at h
    · obtain ⟨hdecl, hact⟩ : declaredLength hd = declared ∧ f.payload.length = actual := by
        simpa [decode_of_length_ne hw hl] using h
      exact ⟨hd, rfl, hl, hdecl.symm, hact.symm⟩

/-! ### Commands, headers and frames -/

/-- The header of a command: which command it is and how long its operands are. -/
def Instr.header : Instr → Header
  | .create => .create
  | .absorb data => .absorb data.length
  | .digest => .digest
  | .hexdigest => .hexdigest
  | .snapshot => .snapshot
  | .restore tag image => .restore tag.length image.length

/-- A command is well-formed when its operand lengths fit their fields. -/
theorem Instr.header_fits_iff (i : Instr) : i.header.Fits ↔ i.wellFormed = true := by
  cases i <;> simp [Instr.header, Header.Fits, Instr.wellFormed]

/-- The encoder's payload has the length the command declares (R73). -/
theorem length_encode_payload (i : Instr) : (encode i).payload.length = declaredLength i.header := by
  cases i <;> simp [encode, Instr.header, declaredLength]

/-- The operands are cut out of the encoder's payload as they went in (R73). -/
theorem assembleInstr_encode_payload (i : Instr) : assembleInstr i.header (encode i).payload = i := by
  cases i <;> simp [encode, Instr.header, assembleInstr]

/-- A command cut out of a payload of the declared length has the header it was cut by. -/
theorem header_assembleInstr {hd : Header} {payload : List Byte} (hl : payload.length = declaredLength hd) :
    (assembleInstr hd payload).header = hd := by
  cases hd with
  | create | digest | hexdigest | snapshot => rfl
  | absorb | restore => simp [assembleInstr, Instr.header, hl, declaredLength]

/-- A payload of the declared length is the payload of the command cut out of it: no byte is left over. -/
theorem encode_payload_assembleInstr {hd : Header} {payload : List Byte} (hl : payload.length = declaredLength hd) :
    (encode (assembleInstr hd payload)).payload = payload := by
  cases hd with
  | create | digest | hexdigest | snapshot => exact (List.length_eq_zero_iff.1 hl).symm
  | absorb n => exact List.take_of_length_le hl.le
  | restore tagLen bLen =>
    have himage : (payload.drop tagLen).take bLen = payload.drop tagLen := by
      refine List.take_of_length_le ?_
      rw [List.length_drop, hl, declaredLength]
      omega
    simp only [assembleInstr, encode, himage, List.take_append_drop]

/-- The encoder's word is the word of the header, where the operand lengths fit (R72). -/
theorem toNat_encode_cw {i : Instr} (hi : i.header.Fits) : (encode i).cw.toNat = i.header.number := by
  cases i with
  | create | digest | hexdigest | snapshot => rfl
  | absorb data =>
    have hn : data.length < 2 ^ 24 := hi
    simp only [encode, toNat_packWord, BitVec.toNat_ofNat, Nat.mod_eq_of_lt hn, Instr.header, Header.number]
    rfl
  | restore tag image =>
    obtain ⟨htag, himage⟩ : tag.length < 2 ^ 8 ∧ image.length < 2 ^ 16 := hi
    have harg : (BitVec.ofNat 16 image.length ++ BitVec.ofNat 8 tag.length).toNat =
        image.length * 2 ^ 8 + tag.length := by
      rw [BitVec.toNat_append, BitVec.toNat_ofNat, BitVec.toNat_ofNat, Nat.mod_eq_of_lt htag,
        Nat.mod_eq_of_lt himage, ← Nat.shiftLeft_add_eq_or_of_lt htag, Nat.shiftLeft_eq]
    rw [encode, toNat_packWord, harg, Instr.header, Header.number]
    simp only [BitVec.reduceToNat]
    ring

/-- The encoder's word of a well-formed command decodes to its header. -/
theorem decodeWord_encode_cw {i : Instr} (hi : i.wellFormed = true) : decodeWord (encode i).cw = some i.header := by
  have hfits := i.header_fits_iff.2 hi
  exact (decodeWord_eq_some_iff _ _).2 ⟨hfits, toNat_encode_cw hfits⟩

/-- Settles O1: the word gives the header back, the payload has the length the header declares, and the operands are cut
out of it as they went in. -/
theorem decodeOfEncode : Obligations.DecodeOfEncode := by
  intro i hi
  rw [decode_of_length_eq (decodeWord_encode_cw hi) (length_encode_payload i), assembleInstr_encode_payload]

/-- Settles O2: a frame that decodes has the word of its header and a payload that is all operand bytes. -/
theorem encodeOfDecode : Obligations.EncodeOfDecode := by
  intro f i h
  obtain ⟨hd, hw, hl, rfl⟩ := decode_ok h
  obtain ⟨hfits, hnum⟩ := (decodeWord_eq_some_iff _ _).1 hw
  rw [← header_assembleInstr hl] at hfits hnum
  have hcw : (encode (assembleInstr hd f.payload)).cw = f.cw :=
    BitVec.eq_of_toNat_eq (by rw [toNat_encode_cw hfits, hnum])
  refine ⟨(Instr.header_fits_iff _).1 hfits, ?_⟩
  calc encode (assembleInstr hd f.payload)
      = ⟨(encode (assembleInstr hd f.payload)).cw, (encode (assembleInstr hd f.payload)).payload⟩ := rfl
    _ = f := by rw [hcw, encode_payload_assembleInstr hl]

/-- Settles O6: each word and payload evaluated by the decoder. -/
theorem workedEncodingsDecode : Obligations.WorkedEncodingsDecode := by
  unfold Obligations.WorkedEncodingsDecode
  decide

/-! ### The opcode map -/

/-- The mask of a format Z row keeps the whole word (R75). -/
theorem and_wordMask_eq_iff (cw m : Word) : cw &&& 0xFFFFFFFF = m ↔ cw.toNat = m.toNat := by
  have hall : cw &&& 0xFFFFFFFF = cw := BitVec.and_allOnes
  rw [hall, BitVec.toNat_inj]

/-- The mask of the other two rows keeps the opcode (R75). -/
theorem and_opcodeMask_eq_iff (cw m : Word) : cw &&& 0x000000FF = m ↔ cw.toNat % 2 ^ 8 = m.toNat := by
  have hmask : (0x000000FF : Word).toNat = 2 ^ 8 - 1 := rfl
  rw [← BitVec.toNat_inj, BitVec.toNat_and, hmask, Nat.and_two_pow_sub_one_eq_mod]

/-- Settles O3: each mask and match is a condition on the number of the word, which `decodeWord_eq_some_iff` compares with
the number of the row's header. -/
theorem opcodeRowsSelectCommands : Obligations.OpcodeRowsSelectCommands := by
  intro cw
  have hcw := cw.isLt
  simp only [and_wordMask_eq_iff, and_opcodeMask_eq_iff, decodeWord_eq_some_iff, Header.Fits, Header.number, true_and]
  refine ⟨Iff.rfl, ?absorb, Iff.rfl, Iff.rfl, Iff.rfl, ?restore, fun h => ?zero⟩
  case absorb | restore => simp only [BitVec.reduceToNat]; omega
  case zero => rw [h]; decide

end Sys2Proof

namespace Sys2Proof.Machine

/-! ### The step over a frame -/

/-- A step over a frame that is no command is `answerUndecoded`, whatever the commands mean. -/
theorem stepWith_undecoded {run : Instr → State → Host.Outcome State Fault Refusal} {s : State} {f : Frame}
    {rest : List HostMove} {e : DecodeError} (hp : s.port = .frame f :: rest) (hd : decode f = .error e) :
    stepWith run s = answerUndecoded e (setPort s rest) := by
  simp only [stepWith, hp, runFrameWith, hd]

/-- Settles O7: `stepWith_frame` with the meanings of this hardware. -/
theorem stepRunsDecodedCommand : Obligations.StepRunsDecodedCommand :=
  fun _ _ _ _ hp hd _ => stepWith_frame hp hd

/-- Settles O4: a word R77 lists is of no row, so the frame is answered and its payload is not read. -/
theorem illegalWordIsAnswered : Obligations.IllegalWordIsAnswered := by
  intro s f rest hp hill
  have hw : decodeWord f.cw = none := by
    rw [decodeWord_nat, if_neg (by omega), if_neg (by omega), if_neg (by omega), if_neg (by omega), if_neg (by omega),
      if_neg (by omega)]
  rw [step, stepWith_undecoded hp (decode_of_illegal hw), answerUndecoded, raise_eq]
  rfl

/-- A word of one of the six commands is legal, and its header declares the length R74 says. -/
theorem exists_header_declaredLength {cw : Word} {declared : Nat}
    (h : (cw.toNat % 2 ^ 8 = 2 ∧ declared = cw.toNat / 2 ^ 8) ∨
      (cw.toNat % 2 ^ 8 = 6 ∧ declared = cw.toNat / 2 ^ 8 % 2 ^ 8 + cw.toNat / 2 ^ 16) ∨
      ((cw.toNat = 1 ∨ cw.toNat = 3 ∨ cw.toNat = 4 ∨ cw.toNat = 5) ∧ declared = 0)) :
    ∃ hd, decodeWord cw = some hd ∧ declaredLength hd = declared := by
  rw [decodeWord_nat]
  obtain ⟨hop, rfl⟩ | ⟨hop, rfl⟩ | ⟨hword | hword | hword | hword, rfl⟩ := h
  · exact ⟨_, if_pos hop, rfl⟩
  · rw [if_neg (by omega)]; exact ⟨_, if_pos hop, rfl⟩
  all_goals
    rw [hword]
    exact ⟨_, rfl, rfl⟩

/-- Settles O5: the word declares its length, the frame has another, and the step refuses it with both. -/
theorem wrongPayloadLengthIsRefused : Obligations.WrongPayloadLengthIsRefused := by
  intro s f rest declared hp hword hl
  obtain ⟨hd, hw, rfl⟩ := exists_header_declaredLength hword
  rw [step, stepWith_undecoded hp (decode_of_length_ne hw hl), answerUndecoded]

/-- No command is refused: each answers a next state. -/
theorem exec_ne_refused (i : Instr) (s : State) (r : Refusal) : exec i s ≠ .refused r := by
  obtain ⟨c, st, p, h, -⟩ := exec_answers i s
  simp [h]

/-- What `answerUndecoded` refuses is the payload length. -/
theorem answerUndecoded_eq_refused {e : DecodeError} {s : State} {r : Refusal} (h : answerUndecoded e s = .refused r) :
    ∃ declared actual, e = .payloadLength declared actual ∧ r = .payloadLength declared actual := by
  cases e with
  | illegalCommand cw => simp [answerUndecoded, raise_eq] at h
  | payloadLength declared actual => exact ⟨declared, actual, rfl, (Host.Outcome.refused.inj h).symm⟩

/-- A step is refused only over a frame that the decoder ends in `payloadLength`, where no command is refused. -/
theorem stepWith_eq_refused {run : Instr → State → Host.Outcome State Fault Refusal} {s : State} {r : Refusal}
    (hrun : ∀ i t, run i t ≠ .refused r) (h : stepWith run s = .refused r) :
    ∃ f rest declared actual, s.port = .frame f :: rest ∧ decode f = .error (.payloadLength declared actual) ∧
      r = .payloadLength declared actual := by
  cases hp : s.port with
  | nil => simp [stepWith_idle hp] at h
  | cons m rest =>
    cases m with
    | reset p => simp [stepWith, hp] at h
    | frame f =>
      cases hd : decode f with
      | ok i => exact absurd ((stepWith_frame hp hd).symm.trans h) (hrun _ _)
      | error e =>
        obtain ⟨declared, actual, rfl, hr⟩ := answerUndecoded_eq_refused ((stepWith_undecoded hp hd).symm.trans h)
        exact ⟨f, rest, declared, actual, rfl, hd, hr⟩

/-- Settles O16: no command is refused, so the decoder refused the payload length. -/
theorem onlyWrongPayloadLengthIsRefused : Obligations.OnlyWrongPayloadLengthIsRefused := by
  intro s r h
  obtain ⟨f, rest, declared, actual, hp, herr, rfl⟩ := stepWith_eq_refused (fun i t => exec_ne_refused i t r) h
  obtain ⟨hd, hw, hl, rfl, rfl⟩ := decode_eq_payloadLength herr
  exact ⟨f, rest, hd, hp, hw, hl, rfl⟩

/-! ### The assembler -/

/-- A command does not assemble exactly when it is not well-formed (R82). -/
theorem assemble_eq_none_iff (i : Instr) : assemble i = none ↔ ¬ i.header.Fits := by
  rw [Instr.header_fits_iff, assemble]
  split_ifs with h <;> simp [h]

/-- A frame is assembled from a command exactly when the command is well-formed and the frame is its encoding. -/
theorem assemble_eq_some_iff (i : Instr) (f : Frame) : assemble i = some f ↔ i.wellFormed = true ∧ encode i = f := by
  rw [assemble]
  split_ifs with h <;> simp [h]

/-- Settles O58: O1 and O2 for the frames; the bounds are those of the fields. -/
theorem assemblerInvertsDecoder : Obligations.AssemblerInvertsDecoder := by
  intro i
  refine ⟨fun f => ?frame, ?none⟩
  case frame =>
    rw [assemble_eq_some_iff]
    exact ⟨fun ⟨hi, hf⟩ => hf ▸ decodeOfEncode i hi, encodeOfDecode f i⟩
  case none =>
    rw [assemble_eq_none_iff]
    cases i with
    | create | digest | hexdigest | snapshot => simp [Instr.header, Header.Fits]
    | absorb | restore => simp only [Instr.header, Header.Fits]; omega

end Sys2Proof.Machine
end

-- Proofs of the statements about the pseudo-instructions (spec/30_encoding.md R83).
section
/-! PROOFS. The statements about the expansions of R83: ABSORB in pieces (R132, R137) for UPDATE, the digest of a
reachable context (R142 to R145) for HASH, and the labeled pair (R80) for RESTORE of a name. -/

namespace Sys2Proof.Machine

/-! ### ABSORB in pieces -/

/-- The byte step neither reads nor writes the counter. -/
theorem absorbStep_withLen (c : Context) (len : Nat) (b : Byte) :
    absorbStep (withLen c len) b = withLen (absorbStep c b) len := by
  unfold absorbStep
  simp only [withLen_num, withLen_h, withLen_buf]
  split_ifs <;> rfl

/-- The counter step and the byte steps can be made in either order. -/
theorem foldl_absorbStep_withLen (data : List Byte) (c : Context) (len : Nat) :
    data.foldl absorbStep (withLen c len) = withLen (data.foldl absorbStep c) len := by
  induction data generalizing c with
  | nil => rfl
  | cons b bs ih => rw [List.foldl_cons, absorbStep_withLen, ih, List.foldl_cons]

/-- The last counter value written stays. -/
@[simp] theorem withLen_withLen (c : Context) (len len' : Nat) : withLen (withLen c len) len' = withLen c len' := by
  unfold withLen; rfl

/-- The two halves hold the whole counter (R25). -/
theorem withLen_lenValue (c : Context) : withLen c (lenValue c) = c := by
  have hlo := c.lenLo.isLt
  have hhi := c.lenHi.isLt
  have elo : lenLoOf (lenValue c) = c.lenLo :=
    BitVec.eq_of_toNat_eq (by rw [lenLoOf, lenValue, BitVec.toNat_ofNat]; omega)
  have ehi : lenHiOf (lenValue c) = c.lenHi :=
    BitVec.eq_of_toNat_eq (by rw [lenHiOf, lenValue, BitVec.toNat_ofNat]; omega)
  rw [withLen, elo, ehi]

/-- The counter is below 2^64. -/
theorem lenValue_lt (c : Context) : lenValue c < 2 ^ 64 := by
  have hlo := c.lenLo.isLt
  have hhi := c.lenHi.isLt
  rw [lenValue]
  omega

/-- ABSORB of no bytes leaves the context (R136). -/
theorem absorbed_nil (c : Context) : absorbed c [] = c := by
  have hlen : lenAfter c 0 = lenValue c := by
    rw [lenAfter, Nat.mul_zero, Nat.add_zero, Nat.mod_eq_of_lt (lenValue_lt c)]
  rw [absorbed, List.foldl_nil, List.length_nil, hlen, withLen_lenValue]

/-- The counter after ABSORB of one part and then of another is that after ABSORB of both (R26, R134). -/
theorem lenAfter_absorbed (c : Context) (x y : List Byte) :
    lenAfter (absorbed c x) y.length = lenAfter c (x ++ y).length := by
  rw [lenAfter, lenValue_absorbed, lenAfter, lenAfter, List.length_append]
  omega

/-- ABSORB of bytes put together of two parts is ABSORB of the one and then of the other (R137). -/
theorem absorbed_append (c : Context) (x y : List Byte) : absorbed c (x ++ y) = absorbed (absorbed c x) y := by
  rw [absorbed, absorbed, lenAfter_absorbed, absorbed]
  simp only [foldl_absorbStep_withLen, withLen_withLen, List.foldl_append]

/-- The context ABSORB of one piece after the other leaves is that of ABSORB of all the bytes. -/
theorem foldl_absorbed (pieces : List (List Byte)) (c : Context) :
    pieces.foldl absorbed c = absorbed c pieces.flatten := by
  induction pieces generalizing c with
  | nil => exact (absorbed_nil c).symm
  | cons x xs ih => rw [List.foldl_cons, ih, List.flatten_cons, absorbed_append]

/-! ### Sequences of commands -/

/-- A sequence put together of two runs the second where the first has ended. -/
theorem runCommands_append {is : List Instr} {s t : State} (h : runCommands is s = .next t) (js : List Instr) :
    runCommands (is ++ js) s = runCommands js t := by
  induction is generalizing s with
  | nil => rw [Host.Outcome.next.inj h, List.nil_append]
  | cons i is ih =>
    obtain ⟨c, st, p, hi, -⟩ := exec_answers i s
    rw [runCommands_cons hi] at h
    rw [List.cons_append, runCommands_cons hi, ih h]

/-- ABSORBs one after the other on a well-formed context: each finds a well-formed context and responds `(OK, [])`. -/
theorem runCommands_map_absorb (pieces : List (List Byte)) {s : State} (hw : s.ctx.WellFormed) :
    runCommands (pieces.map .absorb) s = .next
      { ctx := pieces.foldl absorbed s.ctx, port := s.port,
        responses := s.responses ++ List.replicate pieces.length ⟨0x00, []⟩ } := by
  induction pieces generalizing s with
  | nil => simp
  | cons x xs ih =>
    rw [List.map_cons, runCommands_cons (exec_absorb_of_wf hw x), ih (absorbed_wellFormed hw x)]
    simp [List.replicate_succ]

/-! ### UPDATE -/

/-- The pieces in a row are the bytes. -/
theorem flatten_piecesOf (fuel k : Nat) (bytes : List Byte) : (piecesOf fuel k bytes).flatten = bytes := by
  induction fuel generalizing bytes with
  | zero => simp [piecesOf]
  | succ fuel ih =>
    rw [piecesOf]
    split_ifs
    · simp
    · rw [List.flatten_cons, ih, List.take_append_drop]

/-- With as much fuel as there are bytes no piece has more than `k` of them. -/
theorem length_le_of_mem_piecesOf {fuel k : Nat} (hk : 0 < k) {bytes : List Byte} (hf : bytes.length ≤ fuel)
    {p : List Byte} (hp : p ∈ piecesOf fuel k bytes) : p.length ≤ k := by
  induction fuel generalizing bytes with
  | zero =>
    rw [List.mem_singleton.1 hp]
    omega
  | succ fuel ih =>
    rw [piecesOf] at hp
    split_ifs at hp with hle
    · rwa [List.mem_singleton.1 hp]
    · obtain rfl | hp := List.mem_cons.1 hp
      · exact List.length_take_le k bytes
      · exact ih (by rw [List.length_drop]; omega) hp

/-- Every command of UPDATE is well-formed: a piece has at most ABSORB_MAX bytes (R83). -/
theorem wellFormed_of_mem_expandUpdate {bytes : List Byte} {i : Instr} (hi : i ∈ expandUpdate bytes) :
    i.wellFormed = true := by
  obtain ⟨p, hp, rfl⟩ := List.mem_map.1 hi
  have hlen : p.length ≤ 2 ^ 24 - 1 := length_le_of_mem_piecesOf (by decide) le_rfl hp
  simp only [Instr.wellFormed, decide_eq_true_eq]
  omega

/-- UPDATE on a well-formed context leaves the context ABSORB of all the bytes leaves. -/
theorem runCommands_expandUpdate (bytes : List Byte) {s : State} (hw : s.ctx.WellFormed) :
    ∃ rs, runCommands (expandUpdate bytes) s =
      .next { ctx := absorbed s.ctx bytes, port := s.port, responses := s.responses ++ rs } := by
  have hrun := runCommands_map_absorb (piecesOf bytes.length Config.absorbMax bytes) hw
  rw [foldl_absorbed, flatten_piecesOf] at hrun
  exact ⟨_, hrun⟩

/-- Settles O55: the pieces in a row are the bytes, and ABSORB does not see where they are cut. -/
theorem updateExpansionAbsorbsAll : Obligations.UpdateExpansionAbsorbsAll := by
  intro bytes s hw
  obtain ⟨rs, hrun⟩ := runCommands_expandUpdate bytes hw
  exact ⟨fun _ hi => wellFormed_of_mem_expandUpdate hi, absorbed s.ctx bytes, rs, exec_absorb_of_wf hw bytes, hrun⟩

/-! ### The digest of the bytes absorbed -/

/-- Bytes that complete a block are compressed after the bytes of the block begun. -/
theorem hashBlocks_append_block (h : HashWords) {m x : List Byte} (hx : m.length % 64 + x.length = 64) :
    hashBlocks h (m ++ x) = compress (hashBlocks h m) (m.drop (64 * (m.length / 64)) ++ x) := by
  have hlen : (m.drop (64 * (m.length / 64)) ++ x).length = 64 := by
    rw [List.length_append, List.length_drop]
    omega
  rw [hashBlocks_append_of_eq h hx, slice, List.drop_append_of_le_length (by omega), List.take_of_length_le hlen.le]

/-- A block after whole blocks is compressed as it is. -/
theorem hashBlocks_append_of_aligned (h : HashWords) {m x : List Byte} (hm : m.length % 64 = 0) (hx : x.length = 64) :
    hashBlocks h (m ++ x) = compress (hashBlocks h m) x := by
  rw [hashBlocks_append_block h (by omega), List.drop_of_length_le (by omega), List.nil_append]

/-- The buffered bytes of a context that holds `m` are the bytes of the block begun (R33). -/
theorem HoldsBytes.bytes_num {m : List Byte} {c : Context} (hc : HoldsBytes m c) :
    c.buf.bytes 0 c.num.toNat = m.drop (64 * (m.length / 64)) := by
  have hn := hc.num
  refine ext_byteAt (by rw [Memory.length_bytes, List.length_drop]; omega) fun i hi => ?_
  have hi : i < c.num.toNat := by simpa using hi
  calc byteAt (c.buf.bytes 0 c.num.toNat) i
      = c.buf.read i := by rw [byteAt, Memory.getD_bytes, if_pos hi, Nat.zero_add]
    _ = byteAt m (64 * (m.length / 64) + i) := by rw [hc.read i (by omega), bufferByte, if_pos (by omega)]
    _ = byteAt (m.drop (64 * (m.length / 64))) i := by
      rw [byteAt, byteAt, List.getD_eq_getElem?_getD, List.getD_eq_getElem?_getD, List.getElem?_drop]

/-- The blocks of a message padded by the 0x80 byte, the zeros of R142 and the length field are its whole blocks and then
the padding blocks of the bytes left over. -/
theorem hashBlocks_padded (h : HashWords) (m : List Byte) {l8 : List Byte} (hl : l8.length = 8) :
    hashBlocks h (m ++ [0x80] ++ zeros ((119 - m.length % 64) % 64) ++ l8) =
      (paddingBlocks (m.length % 64) (m.drop (64 * (m.length / 64))) l8).foldl compress (hashBlocks h m) := by
  simp only [paddingBlocks, padsInOneBlock, decide_eq_true_eq]
  split_ifs with hone
  case pos =>
    have hz : (119 - m.length % 64) % 64 = 55 - m.length % 64 := by omega
    have hsplit : m ++ [0x80] ++ zeros ((119 - m.length % 64) % 64) ++ l8 =
        m ++ ([0x80] ++ zeros (55 - m.length % 64) ++ l8) := by simp [hz]
    rw [hsplit, hashBlocks_append_block h (by simp [hl]; omega)]
    simp
  case neg =>
    have hz : zeros ((119 - m.length % 64) % 64) = zeros (63 - m.length % 64) ++ zeros 56 := by
      rw [zeros, zeros, zeros, List.replicate_append_replicate]
      congr 1
      omega
    have hsplit : m ++ [0x80] ++ zeros ((119 - m.length % 64) % 64) ++ l8 =
        m ++ ([0x80] ++ zeros (63 - m.length % 64)) ++ (zeros 56 ++ l8) := by simp [hz]
    rw [hsplit, hashBlocks_append_of_aligned h (by simp; omega) (by simp [hl]),
      hashBlocks_append_block h (by simp; omega)]
    simp

/-- The length field is the counter as a 64-bit number, most significant byte first (R143). -/
theorem lengthField_eq_be64 (c : Context) : lengthField c = be64 (lenValue c) := by
  have hhi : lenHiOf (lenValue c) = c.lenHi := by rw [← withLen_lenHi c, withLen_lenValue]
  have hlo : lenLoOf (lenValue c) = c.lenLo := by rw [← withLen_lenLo c, withLen_lenValue]
  rw [lengthField, ← hhi, ← hlo]
  rfl

/-- The 8 bytes hold a number modulo 2^64. -/
theorem be64_mod (v : Nat) : be64 (v % 2 ^ 64) = be64 v := by
  have hhi : BitVec.ofNat 32 (v % 2 ^ 64 / 2 ^ 32) = BitVec.ofNat 32 (v / 2 ^ 32) :=
    BitVec.eq_of_toNat_eq (by simp only [BitVec.toNat_ofNat]; omega)
  have hlo : BitVec.ofNat 32 (v % 2 ^ 64) = BitVec.ofNat 32 v :=
    BitVec.eq_of_toNat_eq (by simp only [BitVec.toNat_ofNat]; omega)
  rw [be64, be64, hhi, hlo]

/-- The digest of a reachable context is SHA-256 of the bytes absorbed (R145). -/
theorem Reachable.digestBytes_eq {m : List Byte} {c : Context} (hc : Reachable m c) : digestBytes c = sha256 m := by
  have hheld := hc.holdsBytes
  rw [digestBytes, hheld.bytes_num, hheld.num, hheld.h, lengthField_eq_be64, hc.lenValue_eq, be64_mod, sha256,
    padMessage, hashBlocks_padded hInit m rfl]

/-! ### HASH -/

/-- The context CREATE makes has absorbed no bytes. -/
theorem reachable_createdCtx : Reachable [] createdCtx := createdCtx_eq_reset ▸ Reachable.reset

/-- ABSORB takes a reachable context to a reachable one. -/
theorem Reachable.absorbed {m : List Byte} {c : Context} (hc : Reachable m c) (data : List Byte) :
    Reachable (m ++ data) (absorbed c data) :=
  Reachable.absorb m data ⟨c, [], []⟩ _ hc (exec_absorb_of_wf hc.wellFormed data)

/-- DIGEST on a reachable context. -/
theorem Reachable.exec_digest {m : List Byte} {s : State} (hs : Reachable m s.ctx) :
    exec .digest s = .next (answered s s.ctx 0x00 (sha256 m)) :=
  hs.digestBytes_eq ▸ execDigest_eq hs.wellFormed

/-- Settles O56: CREATE makes a context that holds no bytes, UPDATE adds the bytes, DIGEST responds with their hash. -/
theorem hashExpansionIsSha256 : Obligations.HashExpansionIsSha256 := by
  intro bytes s
  have hreach : Reachable bytes (absorbed createdCtx bytes) := reachable_createdCtx.absorbed bytes
  obtain ⟨rs, hupdate⟩ := runCommands_expandUpdate bytes (s := answered s createdCtx 0x00 []) createdCtx_wellFormed
  refine ⟨absorbed createdCtx bytes, [⟨0x00, []⟩] ++ rs, ?_⟩
  rw [expandHash, runCommands_cons (exec_create s), runCommands_append hupdate,
    runCommands_cons (Reachable.exec_digest hreach), runCommands_nil]
  simp [answered]

/-! ### RESTORE of a name -/

/-- The tag and the image are cut out of a labeled pair as they went in (R80). -/
theorem expandRestore_labeledPair {tag : List Byte} (htag : tag.length < 2 ^ 8) (image : List Byte) :
    expandRestore (labeledPair tag image) = [.restore tag image] := by
  have hlen : (byteAt (labeledPair tag image) 0).toNat = tag.length := Nat.mod_eq_of_lt htag
  rw [expandRestore, hlen, labeledPair, Nat.add_comm 1, List.drop_succ_cons, List.drop_left, slice,
    List.drop_succ_cons, List.drop_zero, List.take_left]

/-- Settles O57: the expansion is RESTORE of the tag and the image of the snapshot, which gives the context back. -/
theorem restoreOfSnapshotResponse : Obligations.RestoreOfSnapshotResponse := by
  intro s s' hw
  refine ⟨labeledPair Config.tag (serialize imageOrder s.ctx), respondOk_eq _ s, ?_⟩
  have hrestore : exec (.restore Config.tag (serialize imageOrder s.ctx)) s' =
      .next (answered s' (deserialize imageOrder (serialize imageOrder s.ctx)) 0x00 []) :=
    execRestore_accepted _ s' (.inl (length_serialize _ _))
  rw [deserialize_serialize imageOrder hw] at hrestore
  rw [expandRestore_labeledPair (by decide), runCommands_cons hrestore, runCommands_nil]

end Sys2Proof.Machine
end

-- Proofs of the statements about the Compression Core (spec/40_compression_core.md).
section
/-! PROOFS. The statements about `Compress`: the constants (R103, R104), the functions bit by bit (R105), the message
schedule (R106), the rounds (R107) and the feed-forward (R108). -/

namespace Sys2Proof.Machine

/-! ### The functions bit by bit -/

/-- The bits of a shift: bit `i` comes from bit `i + n`, and there is none above bit 31 (R12). -/
theorem getLsbD_shr (x : Word) (n i : Nat) : (shr x n).getLsbD i = x.getLsbD (i + n) := by
  rw [shr, BitVec.getLsbD_ushiftRight, Nat.add_comm]

/-- `rotr` is the library's rotation (R12). -/
theorem rotr_eq_rotateRight (x : Word) {n : Nat} (hn : n < 32) : rotr x n = x.rotateRight n := by
  rw [rotr, shr, BitVec.rotateRight_def, Nat.mod_eq_of_lt hn]

/-- The bits of a rotation: bit `i` comes from bit `i + n`, counted round the word (R12). -/
theorem getLsbD_rotr (x : Word) {n i : Nat} (hn : n < 32) (hi : i < 32) :
    (rotr x n).getLsbD i = x.getLsbD ((i + n) % 32) := by
  rw [rotr_eq_rotateRight x hn, BitVec.getLsbD_rotateRight, Nat.mod_eq_of_lt hn]
  by_cases hin : i < 32 - n
  · have hpos : (i + n) % 32 = n + i := by omega
    simp [hin, hpos]
  · have hpos : (i + n) % 32 = i - (32 - n) := by omega
    simp [hin, hi, hpos]

/-- Settles O42: each rotation and shift bit by bit, at the amounts of R105. -/
theorem sigmaFunctionsBitwise : Obligations.SigmaFunctionsBitwise := by
  intro x i hi
  refine ⟨?bsig0, ?bsig1, ?ssig0, ?ssig1⟩
  case bsig0 => simp only [bsig0, BitVec.getLsbD_xor, getLsbD_rotr, hi, Nat.reduceLT]
  case bsig1 => simp only [bsig1, BitVec.getLsbD_xor, getLsbD_rotr, hi, Nat.reduceLT]
  case ssig0 => simp only [ssig0, BitVec.getLsbD_xor, getLsbD_rotr, getLsbD_shr, hi, Nat.reduceLT]
  case ssig1 => simp only [ssig1, BitVec.getLsbD_xor, getLsbD_rotr, getLsbD_shr, hi, Nat.reduceLT]

/-- A bit of `Ch` is chosen by the bit of the first argument (R105). -/
theorem getLsbD_ch (x y z : Word) {i : Nat} (hi : i < 32) :
    (ch x y z).getLsbD i = if x.getLsbD i then y.getLsbD i else z.getLsbD i := by
  rw [ch, BitVec.getLsbD_xor, BitVec.getLsbD_and, BitVec.getLsbD_and, BitVec.getLsbD_not]
  cases x.getLsbD i <;> simp [hi]

/-- A bit of `Maj` is set where two of the bits or more are (R105). -/
theorem getLsbD_maj (x y z : Word) (i : Nat) :
    (maj x y z).getLsbD i = decide (2 ≤ (x.getLsbD i).toNat + (y.getLsbD i).toNat + (z.getLsbD i).toNat) := by
  have hbits : ∀ a b c : Bool,
      ((a && b ^^ a && c) ^^ b && c) = decide (2 ≤ a.toNat + b.toNat + c.toNat) := by decide
  simp only [maj, BitVec.getLsbD_xor, BitVec.getLsbD_and, hbits]

/-- Settles O40: `getLsbD_ch` and `getLsbD_maj`. -/
theorem choiceAndMajorityBitwise : Obligations.ChoiceAndMajorityBitwise :=
  fun x y z i hi => ⟨getLsbD_ch x y z hi, getLsbD_maj x y z i⟩

/-! ### The message schedule -/

/-- The recurrence of R106 at the word `W[t]` of the words `w`, oldest first. -/
def FollowsRecurrence (w : List Word) (t : Nat) : Prop :=
  w.getD t 0 = ssig1 (w.getD (t - 2) 0) + w.getD (t - 7) 0 + ssig0 (w.getD (t - 15) 0) + w.getD (t - 16) 0

theorem length_extendSchedule (n : Nat) (ws : List Word) : (extendSchedule n ws).length = n + ws.length := by
  induction n generalizing ws with
  | zero => rw [extendSchedule, Nat.zero_add]
  | succ n ih => rw [extendSchedule, ih, List.length_cons]; omega

/-- The words a schedule was made from stay in their places. -/
theorem getD_reverse_extendSchedule (n : Nat) {ws : List Word} {t : Nat} (ht : t < ws.length) :
    (extendSchedule n ws).reverse.getD t 0 = ws.reverse.getD t 0 := by
  induction n generalizing ws with
  | zero => rfl
  | succ n ih =>
    have ht' : t < (nextScheduleWord ws :: ws).length := ht.trans (Nat.lt_succ_self _)
    rw [extendSchedule, ih ht', List.reverse_cons, List.getD_append _ _ _ _ (by simpa using ht)]

/-- The word at position `k` newest first is the one `k + 1` places before the end oldest first. -/
theorem getD_reverse_of_newest (ws : List Word) {k : Nat} (hk : k < ws.length) :
    ws.reverse.getD (ws.length - (k + 1)) 0 = ws.getD k 0 := by
  rw [List.getD_reverse _ (by omega)]
  congr 1
  omega

/-- The word put in front of 16 words or more follows the recurrence. -/
theorem followsRecurrence_nextScheduleWord (n : Nat) {ws : List Word} (hws : 16 ≤ ws.length) :
    FollowsRecurrence (extendSchedule (n + 1) ws).reverse ws.length := by
  have hnew : (extendSchedule (n + 1) ws).reverse.getD ws.length 0 = nextScheduleWord ws := by
    rw [extendSchedule, getD_reverse_extendSchedule n (by simp), List.getD_reverse _ (by simp)]
    simp
  have hold (k : Nat) (hk : k < 16) :
      (extendSchedule (n + 1) ws).reverse.getD (ws.length - (k + 1)) 0 = ws.getD k 0 := by
    rw [getD_reverse_extendSchedule (n + 1) (by omega), getD_reverse_of_newest ws (by omega)]
  rw [FollowsRecurrence, hnew, hold 1 (by decide), hold 6 (by decide), hold 14 (by decide), hold 15 (by decide),
    nextScheduleWord]

/-- Every word put in front of 16 words or more follows the recurrence. -/
theorem followsRecurrence_extendSchedule {n t : Nat} {ws : List Word} (hws : 16 ≤ ws.length) (hlo : ws.length ≤ t)
    (hhi : t < n + ws.length) : FollowsRecurrence (extendSchedule n ws).reverse t := by
  induction n generalizing ws with
  | zero => omega
  | succ n ih =>
    obtain rfl | hlt := Nat.eq_or_lt_of_le hlo
    · exact followsRecurrence_nextScheduleWord n hws
    · rw [extendSchedule]
      exact ih (by rw [List.length_cons]; omega) hlt (by rw [List.length_cons]; omega)

@[simp] theorem length_blockWords (block : List Byte) : (blockWords block).length = 16 := by simp [blockWords]

@[simp] theorem length_schedule (block : List Byte) : (schedule block).length = 64 := by
  rw [schedule, List.length_reverse, length_extendSchedule, List.length_reverse, length_blockWords]

/-- The first 16 schedule words are those of the block (R106). -/
theorem getD_schedule_of_lt (block : List Byte) {t : Nat} (ht : t < 16) :
    (schedule block).getD t 0 = be32dec (slice block (4 * t) 4) := by
  rw [schedule, getD_reverse_extendSchedule 48 (by simpa using ht), List.reverse_reverse]
  simp [blockWords, List.getD_eq_getElem?_getD, ht]

/-- The later schedule words follow the recurrence (R106). -/
theorem followsRecurrence_schedule (block : List Byte) {t : Nat} (hlo : 16 ≤ t) (hhi : t < 64) :
    FollowsRecurrence (schedule block) t :=
  followsRecurrence_extendSchedule (by simp) (by simpa using hlo) (by simpa using hhi)

/-- The value of four bytes of a sequence, the first one most significant (R11). -/
theorem toNat_be32dec_slice (s : List Byte) (i : Nat) :
    (be32dec (slice s i 4)).toNat = (byteAt s i).toNat * 2 ^ 24 + (byteAt s (i + 1)).toNat * 2 ^ 16 +
      (byteAt s (i + 2)).toNat * 2 ^ 8 + (byteAt s (i + 3)).toNat := by
  rw [toNat_be32dec, byteAt_slice s i 4 0 (by decide), byteAt_slice s i 4 1 (by decide),
    byteAt_slice s i 4 2 (by decide), byteAt_slice s i 4 3 (by decide), Nat.add_zero]

/-- Settles O38: the words of the block, then the recurrence by induction on the words put in front of them. -/
theorem scheduleRecurrence : Obligations.ScheduleRecurrence := by
  refine fun block _ => ⟨length_schedule block, fun t ht => ?_, fun t => followsRecurrence_schedule block⟩
  rw [getD_schedule_of_lt block ht, toNat_be32dec_slice]

/-! ### The rounds and the feed-forward -/

theorem length_roundConstants : roundConstants.length = 64 := rfl

/-- The rounds of two lists in a row: those of the second begin where those of the first end. -/
theorem runRounds_append (v : WorkVars) (xs ys : List (Word × Word)) :
    runRounds v (xs ++ ys) = runRounds (runRounds v xs) ys := by
  induction xs generalizing v with
  | nil => rfl
  | cons kw xs ih => rw [List.cons_append, runRounds, ih, runRounds]

/-- The round constants and schedule words of a block, paired (R107). -/
def roundInputs (block : List Byte) : List (Word × Word) := roundConstants.zip (schedule block)

/-- There are 64 rounds. -/
theorem length_roundInputs (block : List Byte) : (roundInputs block).length = 64 := by
  rw [roundInputs, List.length_zip, length_roundConstants, length_schedule, Nat.min_self]

/-- Round `t` takes `K[t]` and `W[t]`. -/
theorem getElem_roundInputs (block : List Byte) {t : Nat} (ht : t < (roundInputs block).length) :
    (roundInputs block)[t] = (roundConstants.getD t 0, (schedule block).getD t 0) := by
  have h64 : t < 64 := length_roundInputs block ▸ ht
  rw [List.getD_eq_getElem _ _ (by rwa [length_roundConstants]), List.getD_eq_getElem _ _ (by rwa [length_schedule])]
  exact List.getElem_zip

/-- The working variables before round `t` of a compression, or after the last round for `t = 64`. -/
def varsBefore (s : HashWords) (block : List Byte) (t : Nat) : WorkVars :=
  runRounds (loadVars s) ((roundInputs block).take t)

/-- Before round 0 the working variables are the state words (R107). -/
theorem varsBefore_zero (s : HashWords) (block : List Byte) : varsBefore s block 0 = loadVars s := rfl

/-- From one round to the next (R107). -/
theorem varsBefore_succ (s : HashWords) (block : List Byte) {t : Nat} (ht : t < 64) :
    varsBefore s block (t + 1) =
      round (varsBefore s block t) (roundConstants.getD t 0) ((schedule block).getD t 0) := by
  have hlen : t < (roundInputs block).length := by rwa [length_roundInputs]
  rw [varsBefore, List.take_succ_eq_append_getElem hlen, runRounds_append, getElem_roundInputs]
  rfl

/-- `Compress` adds the working variables after the last round to the state (R108). -/
theorem compress_eq_feedForward (s : HashWords) (block : List Byte) :
    compress s block = feedForward s (varsBefore s block 64) := by
  rw [varsBefore, List.take_of_length_le (length_roundInputs block).le]
  rfl

/-- Settles O39: the sequence is `varsBefore`. -/
theorem compressRoundsAndFeedForward : Obligations.CompressRoundsAndFeedForward := by
  intro s block _
  exact ⟨varsBefore s block, varsBefore_zero s block, fun t ht => ⟨_, _, rfl, rfl, varsBefore_succ s block ht⟩,
    compress_eq_feedForward s block⟩

/-! ### The constants -/

/-- Settles O43: for each of the eight primes the whole part is found among the numbers below 5 and both bounds are
computed. -/
theorem initialWordsAreSquareRoots : Obligations.InitialWordsAreSquareRoots := by
  unfold Obligations.InitialWordsAreSquareRoots
  decide

/-- Settles O44: for each of the 64 primes the whole part is found among the numbers below 7 and both bounds are
computed. -/
theorem roundConstantsAreCubeRoots : Obligations.RoundConstantsAreCubeRoots := by
  refine ⟨length_roundConstants, ?_⟩
  decide

end Sys2Proof.Machine
end

-- Proofs of the statements about the context commands (spec/41_context_ops.md).
section
/-! PROOFS. The statements about the Digest Context commands: CREATE (R131), ABSORB (R132 to R137), the padding and the
digest (R140 to R145), the hexadecimal form (R146, R147), and the status each command ends with (R191). -/

namespace Sys2Proof.Machine

/-! ### CREATE, and the table of statuses -/

/-- Settles O21: the context CREATE makes is the one reset gives, whose fields are literals. -/
theorem createMakesFreshContext : Obligations.CreateMakesFreshContext := by
  refine ⟨by decide, fun s => ⟨State.reset.ctx, ?_, rfl, rfl, rfl, fun _ _ => rfl, rfl, rfl, rfl⟩⟩
  rw [exec_create, createdCtx_eq_reset]

/-- A command that tests the context ends in `OK` where it is well-formed; elsewhere in `ContextFault`, with nothing
changed (R130). -/
theorem guarded_status {out : Host.Outcome State Fault Refusal} {s : State}
    (hwf : s.ctx.WellFormed → ∃ c p, out = .next (answered s c 0x00 p))
    (hill : ¬ s.ctx.WellFormed → out = .next (answered s s.ctx 0x04 [])) :
    ∃ (c : Context) (status : Byte) (payload : List Byte), out = .next (answered s c status payload) ∧
      status = (if s.ctx.WellFormed then 0x00 else 0x04) ∧ (status ≠ 0x00 → c = s.ctx ∧ payload = []) := by
  by_cases hw : s.ctx.WellFormed
  · obtain ⟨c, p, h⟩ := hwf hw
    exact ⟨c, 0x00, p, h, (if_pos hw).symm, fun hne => absurd rfl hne⟩
  · exact ⟨s.ctx, 0x04, [], hill hw, (if_neg hw).symm, fun _ => ⟨rfl, rfl⟩⟩

/-- RESTORE ends in the status of the first of its two tests that fails, with nothing changed, or in `OK` (R165). -/
theorem exec_restore_status (tag image : List Byte) (s : State) :
    ∃ (c : Context) (status : Byte), exec (.restore tag image) s = .next (answered s c status []) ∧
      status = (if tag ≠ Config.tag then 0x01 else if image.length = 112 ∨ image.length = 120 then 0x00 else 0x02) ∧
      (status ≠ 0x00 → c = s.ctx) := by
  by_cases ht : tag = Config.tag
  · subst ht
    rw [if_neg (not_not_intro rfl)]
    by_cases hl : image.length = 112 ∨ image.length = 120
    · exact ⟨_, 0x00, execRestore_accepted image s hl, (if_pos hl).symm, fun hne => absurd rfl hne⟩
    · exact ⟨s.ctx, 0x02, execRestoreIn_malformed imageOrder image s hl, (if_neg hl).symm, fun _ => rfl⟩
  · exact ⟨s.ctx, 0x01, execRestoreIn_unsupported imageOrder ht image s, (if_pos ht).symm, fun _ => rfl⟩

/-- Settles O17: CREATE and SNAPSHOT always complete, three commands test the context, RESTORE tests its operands. -/
theorem everyCommandEndsAsTheTableSays : Obligations.EveryCommandEndsAsTheTableSays := by
  intro i s
  cases i with
  | create => exact ⟨_, 0x00, _, exec_create s, rfl, fun hne => absurd rfl hne⟩
  | snapshot => exact ⟨_, 0x00, _, respondOk_eq _ s, rfl, fun hne => absurd rfl hne⟩
  | absorb data =>
    exact guarded_status (fun hw => ⟨_, _, exec_absorb_of_wf hw data⟩) fun hw => guardWellFormed_of_not_wf hw _
  | digest => exact guarded_status (fun hw => ⟨_, _, execDigest_eq hw⟩) fun hw => guardWellFormed_of_not_wf hw _
  | hexdigest => exact guarded_status (fun hw => ⟨_, _, execHexdigest_eq hw⟩) fun hw => guardWellFormed_of_not_wf hw _
  | restore tag image =>
    obtain ⟨c, status, h, hstatus, herr⟩ := exec_restore_status tag image s
    exact ⟨c, status, [], h, hstatus, fun hne => ⟨herr hne, rfl⟩⟩

/-! ### ABSORB: the counter, no bytes, and bytes in two parts -/

@[simp] theorem absorbed_lenLo (c : Context) (data : List Byte) :
    (absorbed c data).lenLo = lenLoOf (lenAfter c data.length) := by
  obtain ⟨hlo, -, -⟩ := foldl_absorbStep_fields data (withLen c (lenAfter c data.length))
  rw [absorbed, hlo, withLen_lenLo]

@[simp] theorem absorbed_lenHi (c : Context) (data : List Byte) :
    (absorbed c data).lenHi = lenHiOf (lenAfter c data.length) := by
  obtain ⟨-, hhi, -⟩ := foldl_absorbStep_fields data (withLen c (lenAfter c data.length))
  rw [absorbed, hhi, withLen_lenHi]

/-- Settles O23: the halves are cut from the sum modulo 2^64. -/
theorem absorbAdvancesLen : Obligations.AbsorbAdvancesLen := by
  intro data s hw
  refine ⟨_, exec_absorb_of_wf hw data, ?lo, ?hi⟩
  case lo => rw [absorbed_lenLo, lenLoOf, BitVec.toNat_ofNat, lenAfter, lenValue]; omega
  case hi => rw [absorbed_lenHi, lenHiOf, BitVec.toNat_ofNat, lenAfter, lenValue]; omega

/-- Settles O26: the counter grows by 0, and there is no byte step. -/
theorem absorbNothingIsNoop : Obligations.AbsorbNothingIsNoop := by
  intro s hw
  rw [exec_absorb_of_wf hw, absorbed_nil]

/-- Settles O28: the context after ABSORB of the first part is well-formed, and `absorbed_append` compares the contexts. -/
theorem chunkingIndependence : Obligations.ChunkingIndependence := by
  intro x y s hw
  exact ⟨absorbed s.ctx x, absorbed (absorbed s.ctx x) y, exec_absorb_of_wf hw x,
    exec_absorb_of_wf (absorbed_wellFormed hw x) y, absorbed_append s.ctx x y ▸ exec_absorb_of_wf hw (x ++ y)⟩

/-! ### ABSORB: the byte step -/

/-- Settles O24: ABSORB of one byte is one byte step after the counter step. -/
theorem absorbOneByte : Obligations.AbsorbOneByte := by
  intro b s hw hbuf
  have hn : s.ctx.num.toNat < 64 := hw.1
  refine ⟨absorbed s.ctx [b], exec_absorb_of_wf hw [b], fun a => ?read, fun hne => ⟨?h, ?num⟩, fun h63 => ⟨?hfull, ?zero⟩⟩
  all_goals rw [absorbed, List.foldl_cons, List.foldl_nil]
  case read => rw [absorbStep_buf, withLen_buf, withLen_num, Memory.read_write hbuf]
  case h => rw [absorbStep_h, withLen_num, if_neg hne, withLen_h]
  case num => rw [absorbStep_num (by rwa [withLen_num]), withLen_num]; omega
  case hfull => rw [absorbStep_h, absorbStep_buf, withLen_num, if_pos h63, h63, withLen_h]
  case zero =>
    refine BitVec.eq_of_toNat_eq ?_
    rw [absorbStep_num (by rwa [withLen_num]), withLen_num, h63]
    rfl

/-! ### ABSORB: the whole effect -/

/-- Fewer than 64 bytes make no block to compress. -/
theorem hashBlocks_of_length_lt (h : HashWords) {m : List Byte} (hm : m.length < 64) : hashBlocks h m = h := by
  rw [hashBlocks, Nat.div_eq_of_lt hm, List.range_zero, List.foldl_nil]

/-- The bytes read from the start of a buffer, by position. -/
theorem byteAt_bytes_zero (buf : Memory) {n a : Nat} (ha : a < n) : byteAt (buf.bytes 0 n) a = buf.read a := by
  rw [byteAt, Memory.getD_bytes, if_pos ha, Nat.zero_add]

/-- The buffer byte at an index after the bytes `m`, put into a buffer that held `old`: the old one where none of `m` has
gone (R133). -/
def bufferByteOver (old : Memory) (m : List Byte) (a : Nat) : Byte :=
  if m.length ≤ a then old.read a else bufferByte m a

/-- An index no byte has gone to holds the old byte. -/
theorem bufferByteOver_of_le (old : Memory) {m : List Byte} {a : Nat} (ha : m.length ≤ a) :
    bufferByteOver old m a = old.read a := if_pos ha

/-- At every other index the old bytes do not matter. -/
theorem bufferByteOver_of_lt (old : Memory) {m : List Byte} {a : Nat} (ha : a < m.length) :
    bufferByteOver old m a = bufferByte m a := if_neg (Nat.not_le_of_lt ha)

/-- One more byte changes the buffer byte at the place it goes to, and no other. -/
theorem bufferByteOver_append_singleton (old : Memory) (m : List Byte) (b : Byte) {a : Nat} (ha : a < 64) :
    bufferByteOver old (m ++ [b]) a = if a = m.length % 64 then b else bufferByteOver old m a := by
  have hlen : (m ++ [b]).length = m.length + 1 := by simp
  by_cases hnone : m.length < a
  · rw [bufferByteOver_of_le old (by omega), bufferByteOver_of_le old hnone.le, if_neg (by omega)]
  · rw [bufferByteOver_of_lt old (by omega), bufferByte_append_singleton m b ha]
    split_ifs with hnew
    · rfl
    · rw [bufferByteOver_of_lt old (by omega)]

/-- Each of the last 64 bytes is in the buffer, at its position modulo 64. -/
theorem bufferByteOver_mod (old : Memory) {m : List Byte} {p : Nat} (hp : p < m.length) (hlast : m.length ≤ p + 64) :
    bufferByteOver old m (p % 64) = byteAt m p := by
  rw [bufferByteOver_of_lt old ((Nat.mod_le p 64).trans_lt hp), bufferByte_of_lt hp hlast]

/-- A buffer byte is of the block begun, else of the block before it, else the old one (R133, R135). -/
theorem bufferByteOver_eq (old : Memory) (m : List Byte) {a : Nat} (ha : a < 64) : bufferByteOver old m a =
    if a < m.length % 64 then byteAt m (64 * (m.length / 64) + a)
    else if 64 ≤ m.length then byteAt m (64 * (m.length / 64 - 1) + a) else old.read a := by
  by_cases hnone : m.length ≤ a
  · rw [bufferByteOver_of_le old hnone, if_neg (by omega), if_neg (by omega)]
  · rw [bufferByteOver_of_lt old (by omega), bufferByte]
    split_ifs with hbegun hbefore
    · rfl
    · rfl
    · omega

/-- What the byte steps have made of the context `c₀`: `m` is the bytes buffered in `c₀` and the bytes taken since, and
`H`, `NUM` and the buffer are those of `m` (R133, R135). -/
structure HasTaken (c₀ : Context) (m : List Byte) (c : Context) : Prop where
  h : c.h = hashBlocks c₀.h m
  num : c.num.toNat = m.length % 64
  wf : c.buf.wf = true
  read : ∀ a, a < 64 → c.buf.read a = bufferByteOver c₀.buf m a

/-- Before the first byte step only the buffered bytes are there. -/
theorem hasTaken_buffered {c : Context} (hn : c.num.toNat < 64) (hw : c.buf.wf = true) :
    HasTaken c (c.buf.bytes 0 c.num.toNat) c := by
  have hlen := Memory.length_bytes c.buf 0 c.num.toNat
  refine ⟨(hashBlocks_of_length_lt c.h (by omega)).symm, by omega, hw, fun a ha => ?read⟩
  case read =>
    by_cases hin : a < c.num.toNat
    · have hread := bufferByteOver_mod c.buf (m := c.buf.bytes 0 c.num.toNat) (p := a) (by omega) (by omega)
      rw [Nat.mod_eq_of_lt ha, byteAt_bytes_zero c.buf hin] at hread
      exact hread.symm
    · exact (bufferByteOver_of_le c.buf (by omega)).symm

/-- The counter step takes no bytes. -/
theorem hasTaken_withLen {c₀ c : Context} {m : List Byte} (hc : HasTaken c₀ m c) (len : Nat) :
    HasTaken c₀ m (withLen c len) := by
  obtain ⟨hh, hn, hw, hr⟩ := hc
  exact ⟨by simpa using hh, by simpa using hn, by simpa using hw, by simpa using hr⟩

/-- The byte step takes its byte: the full buffer it compresses is the block the byte completes. -/
theorem hasTaken_absorbStep {c₀ c : Context} {m : List Byte} (hc : HasTaken c₀ m c) (b : Byte) :
    HasTaken c₀ (m ++ [b]) (absorbStep c b) := by
  obtain ⟨hh, hn, hw, hr⟩ := hc
  have hlt : c.num.toNat < 64 := by omega
  have hlen : (m ++ [b]).length = m.length + 1 := by simp
  have hread : ∀ a, a < 64 → (c.buf.write c.num.toNat b).read a = bufferByteOver c₀.buf (m ++ [b]) a := fun a ha => by
    rw [Memory.read_write hw, bufferByteOver_append_singleton c₀.buf m b ha, hn, hr a ha]
  refine ⟨?h, ?num, ?wf, ?read⟩
  case h =>
    rw [absorbStep_h, hh]
    split_ifs with h63
    · have hfull : ∀ a, a < 64 → (c.buf.write 63 b).read a = bufferByte (m ++ [b]) a := fun a ha => by
        rw [← h63, hread a ha, bufferByteOver_of_lt c₀.buf (by omega)]
      rw [bytes_eq_slice_of_read (q := m.length / 64) (by omega) hfull,
        hashBlocks_append_of_eq c₀.h (by rw [List.length_singleton]; omega)]
    · rw [hashBlocks_append_of_lt c₀.h (by rw [List.length_singleton]; omega)]
  case num => rw [absorbStep_num hlt, hn, hlen, Nat.mod_add_mod]
  case wf => rw [absorbStep_buf]; exact Memory.write_wf hw hlt b
  case read => rw [absorbStep_buf]; exact hread

/-- The byte steps take their bytes in order. -/
theorem hasTaken_foldl_absorbStep {c₀ c : Context} {m : List Byte} (hc : HasTaken c₀ m c) (data : List Byte) :
    HasTaken c₀ (m ++ data) (data.foldl absorbStep c) := by
  induction data generalizing m c with
  | nil => rw [List.append_nil]; exact hc
  | cons b bs ih => rw [List.append_cons]; exact ih (hasTaken_absorbStep hc b)

/-- ABSORB on a well-formed context takes its payload behind the buffered bytes (R132). -/
theorem hasTaken_absorbed {c : Context} (hn : c.num.toNat < 64) (hw : c.buf.wf = true) (data : List Byte) :
    HasTaken c (c.buf.bytes 0 c.num.toNat ++ data) (absorbed c data) :=
  hasTaken_foldl_absorbStep (hasTaken_withLen (hasTaken_buffered hn hw) _) data

/-- Settles O22: `HasTaken` of the context ABSORB leaves, written out. -/
theorem absorbEffect : Obligations.AbsorbEffect := by
  intro data s hw hbuf
  obtain ⟨hh, -, hwf, hread⟩ := hasTaken_absorbed hw.1 hbuf data
  have hlen : (s.ctx.buf.bytes 0 s.ctx.num.toNat ++ data).length = s.ctx.num.toNat + data.length := by simp
  refine ⟨_, exec_absorb_of_wf hw data, ?h, lenValue_absorbed s.ctx data, absorbed_num hw.1 data,
    absorbed_mdlen s.ctx data, fun a => ?read⟩
  case h => rw [hh, hashBlocks, hlen]
  case read =>
    by_cases ha : 64 ≤ a
    · rw [if_pos ha, Memory.read_of_ge hwf ha, Memory.read_of_ge hbuf ha]
    · rw [if_neg ha, hread a (by omega), bufferByteOver_eq s.ctx.buf _ (by omega), hlen]

/-- A buffer byte at an index no payload byte goes to is the one ABSORB found (R133). -/
theorem read_absorbed_of_ne {c : Context} (hn : c.num.toNat < 64) (hw : c.buf.wf = true) {data : List Byte} {a : Nat}
    (ha : ∀ i, i < data.length → a ≠ (c.num.toNat + i) % 64) : (absorbed c data).buf.read a = c.buf.read a := by
  obtain ⟨-, -, hwf, hread⟩ := hasTaken_absorbed hn hw data
  by_cases h64 : 64 ≤ a
  · rw [Memory.read_of_ge hwf h64, Memory.read_of_ge hw h64]
  · have hlen : (c.buf.bytes 0 c.num.toNat ++ data).length = c.num.toNat + data.length := by simp
    rw [hread a (by omega)]
    by_cases hin : a < c.num.toNat
    · have hlast : c.num.toNat + data.length ≤ a + 64 := by
        by_contra hover
        exact ha (a + 64 - c.num.toNat) (by omega) (by omega)
      have hmod := bufferByteOver_mod c.buf (m := c.buf.bytes 0 c.num.toNat ++ data) (p := a) (by omega) (by omega)
      rwa [Nat.mod_eq_of_lt (by omega), byteAt_append, if_pos (by simpa using hin), byteAt_bytes_zero c.buf hin] at hmod
    · have hlast : c.num.toNat + data.length ≤ a := by
        by_contra hover
        exact ha (a - c.num.toNat) (by omega) (by omega)
      exact bufferByteOver_of_le c.buf (by omega)

/-- Settles O25: `H` changes only where a block is completed. -/
theorem absorbFrame : Obligations.AbsorbFrame := by
  intro data s t hw hbuf h
  have ha := exec_absorb_of_wf hw data
  rw [ctx_of_answered h ha]
  refine ⟨fun a => read_absorbed_of_ne hw.1 hbuf, absorbed_mdlen s.ctx data, fun hfew => ?_, port_of_answered h ha⟩
  rw [(hasTaken_absorbed hw.1 hbuf data).h]
  exact hashBlocks_of_length_lt _ (by simp; omega)

/-! ### The padding and the digest -/

/-- With up to 55 bytes buffered there is one padding block. -/
theorem paddingBlocks_of_le {n : Nat} (hn : n ≤ 55) (m l8 : List Byte) :
    paddingBlocks n m l8 = [m ++ [0x80] ++ zeros (55 - n) ++ l8] := if_pos (decide_eq_true hn)

/-- With more bytes buffered there are two. -/
theorem paddingBlocks_of_gt {n : Nat} (hn : 55 < n) (m l8 : List Byte) :
    paddingBlocks n m l8 = [m ++ [0x80] ++ zeros (63 - n), zeros 56 ++ l8] :=
  if_neg (ne_true_of_eq_false (decide_eq_false hn.not_ge))

/-- Settles O30: with `n` bytes buffered there are `55 - n` zeros in one block, or `63 - n + 56` in two. -/
theorem paddingIsShortest : Obligations.PaddingIsShortest := by
  intro m l8 hm hl
  by_cases hone : m.length ≤ 55
  · rw [paddingBlocks_of_le hone]
    refine ⟨fun b hb => ?_, 55 - m.length, by simp [zeros], fun j hj => by omega⟩
    obtain rfl := List.mem_singleton.1 hb
    simp [hl]
    omega
  · rw [paddingBlocks_of_gt (by omega)]
    refine ⟨fun b hb => ?_, 63 - m.length + 56, by simp [zeros, ← List.replicate_append_replicate], fun j hj => by omega⟩
    obtain rfl | rfl : b = m ++ [0x80] ++ zeros (63 - m.length) ∨ b = zeros 56 ++ l8 := by simpa using hb
    · simp
      omega
    · simp [hl]

/-- The digest form, word by word (R144). -/
theorem digestOf_eq (h : HashWords) : digestOf h =
    be32 h.h0 ++ be32 h.h1 ++ be32 h.h2 ++ be32 h.h3 ++ be32 h.h4 ++ be32 h.h5 ++ be32 h.h6 ++ be32 h.h7 := rfl

/-- The one or two compressions of finalization (R142). -/
theorem foldl_compress_paddingBlocks (h : HashWords) (n : Nat) (m l8 : List Byte) :
    (paddingBlocks n m l8).foldl compress h =
      if n ≤ 55 then compress h (m ++ [0x80] ++ zeros (55 - n) ++ l8)
      else compress (compress h (m ++ [0x80] ++ zeros (63 - n))) (zeros 56 ++ l8) := by
  split_ifs with hone
  · rw [paddingBlocks_of_le hone, List.foldl_cons, List.foldl_nil]
  · rw [paddingBlocks_of_gt (by omega), List.foldl_cons, List.foldl_cons, List.foldl_nil]

/-- Settles O29: the digest of the context, its words and its padding blocks written out. -/
theorem digestResult : Obligations.DigestResult := by
  intro s hw
  refine (execDigest_eq hw).trans ?_
  rw [digestBytes, foldl_compress_paddingBlocks, digestOf_eq]
  rfl

/-- The digest reads `H`, the counter, `NUM` and the first `NUM` buffer bytes, and nothing else (R142). -/
theorem digestBytes_congr {c₁ c₂ : Context} (hh : c₁.h = c₂.h) (hlo : c₁.lenLo = c₂.lenLo) (hhi : c₁.lenHi = c₂.lenHi)
    (hnum : c₁.num = c₂.num) (hread : ∀ a, a < c₁.num.toNat → c₁.buf.read a = c₂.buf.read a) :
    digestBytes c₁ = digestBytes c₂ := by
  have hbytes : c₁.buf.bytes 0 c₁.num.toNat = c₂.buf.bytes 0 c₁.num.toNat :=
    ext_byteAt (by simp) fun i hi => by
      have hi : i < c₁.num.toNat := by simpa using hi
      rw [byteAt_bytes_zero _ hi, byteAt_bytes_zero _ hi, hread i hi]
  rw [digestBytes, digestBytes, lengthField, lengthField, hbytes, hh, hlo, hhi, hnum]

/-- Settles O31: the two digests are one by `digestBytes_congr`. -/
theorem digestIgnoresUnusedTail : Obligations.DigestIgnoresUnusedTail := by
  intro s₁ s₂ hw₁ hw₂ hh hlo hhi hnum hread
  exact ⟨digestBytes s₁.ctx, execDigest_eq hw₁, digestBytes_congr hh hlo hhi hnum hread ▸ execDigest_eq hw₂⟩

/-- Settles O37: a reachable context holds the blocks of the bytes absorbed, and the padding blocks complete them. -/
theorem reachableDigestIsSha256 : Obligations.ReachableDigestIsSha256 :=
  fun _ _ hreach => hreach.exec_digest

/-! ### The hexadecimal form -/

/-- Settles O32: both commands compute the digest of the context, 32 bytes. -/
theorem hexdigestResult : Obligations.HexdigestResult := by
  intro s hw
  have hlen : (digestBytes s.ctx).length = 32 := length_digestOf _
  exact ⟨digestBytes s.ctx, execDigest_eq hw, execHexdigest_eq hw, hlen, by rw [length_hexEncode, hlen]⟩

/-- The character of a nibble (R147). -/
theorem toNat_hexChar (v : BitVec 4) :
    (hexChar v).toNat = if v.toNat ≤ 9 then 0x30 + v.toNat else 0x61 + v.toNat - 10 := by
  have hv := v.isLt
  unfold hexChar
  split_ifs <;> rw [BitVec.toNat_ofNat] <;> omega

/-- The two characters of a byte stand at twice its position, the high nibble first (R147). -/
theorem byteAt_hexEncode {d : List Byte} {i : Nat} (hi : i < d.length) :
    byteAt (hexEncode d) (2 * i) = hexChar ((byteAt d i).extractLsb' 4 4) ∧
      byteAt (hexEncode d) (2 * i + 1) = hexChar ((byteAt d i).extractLsb' 0 4) := by
  induction d generalizing i with
  | nil => exact absurd hi (Nat.not_lt_zero i)
  | cons b d ih =>
    cases i with
    | zero => exact ⟨rfl, rfl⟩
    | succ i => exact ih (Nat.lt_of_succ_lt_succ hi)

/-- Settles O33: the nibbles of a byte are its quotient and its remainder by 16. -/
theorem hexEncodeCharacters : Obligations.HexEncodeCharacters := by
  refine fun d => ⟨length_hexEncode d, fun i hi => ?_⟩
  obtain ⟨hhigh, hlow⟩ := byteAt_hexEncode hi
  have hb := (byteAt d i).isLt
  have ehigh : ((byteAt d i).extractLsb' 4 4).toNat = (byteAt d i).toNat / 16 := by
    rw [BitVec.extractLsb'_toNat, Nat.shiftRight_eq_div_pow]; omega
  have elow : ((byteAt d i).extractLsb' 0 4).toNat = (byteAt d i).toNat % 16 := BitVec.extractLsb'_toNat ..
  rw [hhigh, hlow, toNat_hexChar, toNat_hexChar, ehigh, elow]
  exact ⟨rfl, rfl⟩

/-- Settles O34: the length and, by its two characters, each byte can be read off the form; no two nibbles have one
character. -/
theorem hexEncodeInjective : Obligations.HexEncodeInjective := by
  intro d₁ d₂ h
  obtain ⟨hl₁, hc₁⟩ := hexEncodeCharacters d₁
  obtain ⟨hl₂, hc₂⟩ := hexEncodeCharacters d₂
  have hl : d₁.length = d₂.length := by rw [h] at hl₁; omega
  refine ext_byteAt hl fun i hi => BitVec.eq_of_toNat_eq ?_
  obtain ⟨hhigh₁, hlow₁⟩ := hc₁ i hi
  obtain ⟨hhigh₂, hlow₂⟩ := hc₂ i (hl ▸ hi)
  rw [h] at hhigh₁ hlow₁
  have hhigh := hhigh₁.symm.trans hhigh₂
  have hlow := hlow₁.symm.trans hlow₂
  simp only at hhigh hlow
  split_ifs at hhigh hlow <;> omega

end Sys2Proof.Machine
end

-- Proofs of the statements about SNAPSHOT and RESTORE (spec/42_state_codec.md).
section
/-! PROOFS. The statements about the State Codec commands: what SNAPSHOT responds (R161, R162), the two tests of RESTORE
(R166, R167), the context it loads (R165, R168, R169), and the two round trips (R170). -/

namespace Sys2Proof.Machine

/-! ### The two commands on this hardware -/

/-- SNAPSHOT on any context, well-formed or not: the labeled pair, and nothing changed (R161, R162). -/
theorem exec_snapshot (s : State) :
    exec .snapshot s = .next (answered s s.ctx 0x00 (labeledPair Config.tag (serialize imageOrder s.ctx))) :=
  respondOk_eq _ s

/-- RESTORE with the right tag of an image of an accepted length, on any context (R165). -/
theorem exec_restore_accepted {image : List Byte} (hl : image.length = 112 ∨ image.length = 120) (s : State) :
    exec (.restore Config.tag image) s = .next (answered s (deserialize imageOrder image) 0x00 []) :=
  execRestore_accepted image s hl

/-- RESTORE with the right tag of an image of any other length (R167). -/
theorem exec_restore_malformed {image : List Byte} (hl : ¬ (image.length = 112 ∨ image.length = 120)) (s : State) :
    exec (.restore Config.tag image) s = .next (answered s s.ctx 0x02 []) :=
  execRestoreIn_malformed imageOrder image s hl

/-! ### SNAPSHOT -/

/-- The hash words in the image of this hardware, word by word (R55). -/
theorem flatMap_snap32_hashList (h : HashWords) : (hashList h).flatMap (snap32 imageOrder) =
    le32 h.h0 ++ le32 h.h1 ++ le32 h.h2 ++ le32 h.h3 ++ le32 h.h4 ++ le32 h.h5 ++ le32 h.h6 ++ le32 h.h7 := rfl

/-- Settles O45: the labeled pair of this hardware, its hash words written out. -/
theorem snapshotResult : Obligations.SnapshotResult := by
  refine ⟨by decide, fun s => ?_⟩
  rw [exec_snapshot, labeledPair_tag_serialize, flatMap_snap32_hashList]
  rfl

/-! ### The tests of RESTORE -/

/-- Settles O50: the length test has two ends. -/
theorem wrongLengthIsMalformedState : Obligations.WrongLengthIsMalformedState :=
  fun _ s => ⟨fun hl => ⟨_, exec_restore_accepted hl s⟩,
    fun ⟨h112, h120⟩ => exec_restore_malformed (not_or_intro h112 h120) s⟩

/-- Settles O49: the tag is tested first; with the right tag the answer is that of the length test. -/
theorem wrongTagIsUnsupportedAlgorithm : Obligations.WrongTagIsUnsupportedAlgorithm := by
  refine fun tag image s => ⟨fun ht => execRestoreIn_unsupported imageOrder ht image s, fun ht => ?_⟩
  subst ht
  by_cases hl : image.length = 112 ∨ image.length = 120
  · exact ⟨_, 0x00, exec_restore_accepted hl s, by decide⟩
  · exact ⟨_, 0x02, exec_restore_malformed hl s, by decide⟩

/-! ### The context RESTORE loads -/

/-- Settles O48: the fields of `deserialize`, each word as the sum of its four bytes. -/
theorem restoreResult : Obligations.RestoreResult := by
  intro image s hl
  refine ⟨deserialize imageOrder image, exec_restore_accepted hl s, ?_⟩
  have hword := toNat_imageWord_little image
  exact ⟨hword 0, hword 4, hword 8, hword 12, hword 16, hword 20, hword 24, hword 28, hword 32, hword 36,
    fun a ha => read_buf_deserialize imageOrder (by omega) ha, memFill_wf _, hword 104, hword 108⟩

/-- Bytes behind an image word do not change it. -/
theorem imageWord_append (o : ByteOrder) {image : List Byte} {off : Nat} (h : off + 4 ≤ image.length)
    (extra : List Byte) : imageWord o (image ++ extra) off = imageWord o image off := by
  rw [imageWord, slice_append_left h, imageWord]

/-- Every field is read from the first 112 bytes (R168). -/
theorem deserialize_append (o : ByteOrder) {image : List Byte} (hl : 112 ≤ image.length) (extra : List Byte) :
    deserialize o (image ++ extra) = deserialize o image := by
  simp (disch := omega) only [deserialize, imageWord_append, slice_append_left]

/-- Settles O51: both images are accepted, and `deserialize` reads the first 112 bytes of either. -/
theorem oversizeBytesAreDiscarded : Obligations.OversizeBytesAreDiscarded := by
  intro image extra s himage hextra
  refine ⟨deserialize imageOrder image, ?_, exec_restore_accepted (.inl himage) s⟩
  rw [← deserialize_append imageOrder himage.ge extra]
  exact exec_restore_accepted (.inr (by rw [List.length_append, himage, hextra])) s

/-! ### The round trips -/

/-- Settles O52: the image is `serialize` of the context, which `deserialize` gives back. -/
theorem restoreAfterSnapshot : Obligations.RestoreAfterSnapshot := by
  intro s s' hw
  have hrestore := exec_restore_accepted (.inl (length_serialize imageOrder s.ctx)) s'
  rw [deserialize_serialize imageOrder hw] at hrestore
  exact ⟨serialize imageOrder s.ctx, exec_snapshot s, hrestore⟩

/-- Settles O53: the context is `deserialize` of the image, which `serialize` gives back. -/
theorem snapshotAfterRestore : Obligations.SnapshotAfterRestore := by
  intro image s hl
  have hsnapshot := exec_snapshot (answered s (deserialize imageOrder image) 0x00 [])
  rw [answered_ctx, serialize_deserialize imageOrder hl] at hsnapshot
  exact ⟨deserialize imageOrder image, exec_restore_accepted (.inl hl) s, hsnapshot⟩

end Sys2Proof.Machine
end

-- Proofs of the statements about the errors (spec/60_exceptions.md).
section
/-! PROOFS. The statement about a command that ends in an error: nothing is changed (R193). -/

namespace Sys2Proof.Machine

/-- A step over a frame that answers gives one response to the frame, decoded or illegal; where its status is an error, the
context is the old one and the payload is empty (R191, R193, R196). -/
theorem step_frame_answers {s t : State} {f : Frame} {rest : List HostMove} (hp : s.port = .frame f :: rest)
    (h : step s = .next t) : ∃ (c : Context) (st : Byte) (p : List Byte),
    t = answered { s with port := rest } c st p ∧ (st ≠ 0x00 → c = s.ctx ∧ p = []) := by
  cases hd : decode f with
  | ok i =>
    obtain ⟨c, st, p, ha, -, herr, -⟩ := exec_answers i (setPort s rest)
    have hrun : step s = exec i (setPort s rest) := stepWith_frame hp hd
    exact ⟨c, st, p, Host.Outcome.next.inj (h.symm.trans (hrun.trans ha)), herr⟩
  | error e =>
    have hund : step s = answerUndecoded e (setPort s rest) := stepWith_undecoded hp hd
    cases e with
    | illegalCommand cw => exact ⟨s.ctx, 0x03, [], Host.Outcome.next.inj (h.symm.trans hund), fun _ => ⟨rfl, rfl⟩⟩
    | payloadLength declared actual => exact absurd (h.symm.trans hund) nofun

/-- Settles O18: the response of the statement is the one `step_frame_answers` gives, which leaves the context with an
error status. -/
theorem errorChangesNothing : Obligations.ErrorChangesNothing := by
  intro s t f rest r hp h hr hne
  obtain ⟨c, st, p, rfl, herr⟩ := step_frame_answers hp h
  obtain rfl : r = ⟨st, p⟩ := (List.singleton_inj.mp (List.append_cancel_left hr)).symm
  obtain ⟨hctx, hpayload⟩ := herr hne
  exact ⟨hpayload, hctx, rfl⟩

end Sys2Proof.Machine
end

-- Proofs of the statements about reset (spec/70_reset_and_hazards.md).
section
/-! PROOFS. The statements about reset: what it abandons (R221) and the values it leaves (R220). -/

namespace Sys2Proof.Machine

/-- With a reset as the host's next move the step asserts it, whatever the commands mean; the command in progress does not
enter. -/
theorem stepWith_reset {run : Instr → State → Host.Outcome State Fault Refusal} {s : State} {inProgress : Option Frame}
    {rest : List HostMove} (hp : s.port = .reset inProgress :: rest) :
    stepWith run s = .next (assertReset (setPort s rest)) := by
  simp only [stepWith, hp]

/-- Settles O9: `stepWith_reset` with the meanings of this hardware. -/
theorem resetAbandonsCommand : Obligations.ResetAbandonsCommand :=
  fun _ _ _ hp => stepWith_reset hp

/-- Settles O10: the words stand in `State.reset`, and its buffer lists no entry. -/
theorem resetValues : Obligations.ResetValues :=
  ⟨rfl, rfl, rfl, fun a _ => Memory.read_nil a, rfl, rfl⟩

end Sys2Proof.Machine
end
